-- ==== Sys2Proof/Word.lean ====
section
/-! DEFINITION. The byte, the only width the machine has (00_scope.md R9), the register index
(10_state.md R21, R23), the pixel (10_state.md R33), and the decoder's vocabulary: operand positions,
the tag an operand byte gets, the class a position has, and the eleven opcode identities
(30_encoding.md R82 to R84; 40_instruction_cycle.md R113 to R115). -/

namespace Sys2Proof

/-- Every architectural value is an unsigned 8-bit integer (00_scope.md R9). -/
abbrev Byte := BitVec 8

/-- A general register's index, 0 to 7: the register file has a 3-bit index input (10_state.md R23). -/
abbrev RegIdx := Fin 8

/-- A colour triple. The width of a channel is not given and no rule computes with one
(00_scope.md R7, 92_eei_decisions.md D19), so a channel is a number of no fixed width
(DESIGN CHOICE, log 13; safe). -/
structure Pixel where
  red : Nat
  green : Nat
  blue : Nat
  deriving DecidableEq, Repr, Inhabited

/-- Where an operand byte stands: operand1 is byte 1, operand2 is byte 2 (30_encoding.md R81, R82). -/
inductive Position where
  | operand1
  | operand2
  deriving DecidableEq, Repr

/-- The decoder's tag of an operand byte (30_encoding.md R83; 40_instruction_cycle.md R114): a
register index, or a raw payload of value 8 to 255 that the execute stage reads as an address or an
immediate. -/
inductive Operand where
  | register (i : RegIdx)
  | raw (b : Byte)
  deriving DecidableEq, Repr

/-- The class of an operand position (30_encoding.md R82, R85). -/
inductive OperandClass where
  | register
  | address
  | numeric
  deriving DecidableEq, Repr

/-- The eleven opcode identities (30_encoding.md R84, R86). -/
inductive Identity where
  | load
  | store
  | add
  | sub
  | mul
  | div
  | mov
  | inc
  | jmp
  | nop
  | hlt
  deriving DecidableEq, Repr

end Sys2Proof
end

