-- ==== Sys2Proof/Syntax.lean ====
section
/-! DEFINITION. The typed instruction the decoder hands to the execute stage
(40_instruction_cycle.md R114), one constructor per row of spec/opcode_table.json. Operands stand in
encoding order, operand1 first (30_encoding.md R82; the order is the spec's decision D2, log 2). -/

namespace Sys2Proof

/-- An instruction. `nopUndefined` is the catch-all row: the identity Nop with the diagnostic
`undefined`, and the byte it was decoded from (30_encoding.md R90, R91). `fill` and `clear` are the
video rows, which nothing in the instruction stream decodes to (44_video.md R181). -/
inductive Instr where
  | load (dst src : Operand)
  | store (dst src : Operand)
  | add (dst operand : Operand)
  | sub (dst operand : Operand)
  | jmp (target : Operand)
  | mov (dst operand : Operand)
  | inc (dst : Operand)
  | div (dst operand : Operand)
  | mul (dst operand : Operand)
  | nop
  | hlt
  | nopUndefined (op : Byte)
  | fill (operands : List Byte)
  | clear (operands : List Byte)
  deriving DecidableEq, Repr

end Sys2Proof
end

