-- ==== Sys2Proof/WellFormed.lean ====
section
/-! DEFINITION. Which terms of Instr the spec's encodings admit. -/

namespace Sys2Proof

/-- The eleven defined opcode bytes (30_encoding.md R86). -/
def definedOpcodes : List Byte :=
  [0x01, 0x02, 0x03, 0x04, 0x05, 0x06, 0x07, 0x08, 0x09, 0x90, 0xFF]

/-- A raw payload is 8 to 255: the values 0 to 7 are register tags (30_encoding.md R83). -/
def Operand.wellFormed : Operand → Bool
  | .register _ => true
  | .raw b => decide (8 ≤ b.toNat)

/-- A typed instruction that some bytes stand for: its operands' tags are as the decoder makes
them, an undefined opcode is not one of the defined eleven (30_encoding.md R90), and a video opcode
has at most two operand bytes (44_video.md R180). -/
def Instr.wellFormed : Instr → Bool
  | .load dst src => dst.wellFormed && src.wellFormed
  | .store dst src => dst.wellFormed && src.wellFormed
  | .add dst operand => dst.wellFormed && operand.wellFormed
  | .sub dst operand => dst.wellFormed && operand.wellFormed
  | .jmp target => target.wellFormed
  | .mov dst operand => dst.wellFormed && operand.wellFormed
  | .inc dst => dst.wellFormed
  | .div dst operand => dst.wellFormed && operand.wellFormed
  | .mul dst operand => dst.wellFormed && operand.wellFormed
  | .nop => true
  | .hlt => true
  | .nopUndefined op => !definedOpcodes.contains op
  | .fill operands => decide (operands.length ≤ 2)
  | .clear operands => decide (operands.length ≤ 2)

end Sys2Proof
end

