-- ==== Sys2Proof/Decode.lean ====
section
/-! DEFINITION. The decoder (30_encoding.md R80 to R92; 40_instruction_cycle.md R112 to R114), and
after it the encoder written from the same tables. -/

namespace Sys2Proof

/-- The opcode byte's identity, and the diagnostic `undefined`: the match is on all 8 bits, and
every byte not listed is Nop (30_encoding.md R86, R90; 40_instruction_cycle.md R113). -/
def identity (op : Byte) : Identity × Bool :=
  match op.toNat with
  | 0x01 => (.load, false)
  | 0x02 => (.store, false)
  | 0x03 => (.add, false)
  | 0x04 => (.sub, false)
  | 0x05 => (.jmp, false)
  | 0x06 => (.mov, false)
  | 0x07 => (.inc, false)
  | 0x08 => (.div, false)
  | 0x09 => (.mul, false)
  | 0x90 => (.nop, false)
  | 0xFF => (.hlt, false)
  | _ => (.nop, true)

/-- The static operand table: the class of each operand, in encoding order (30_encoding.md R84). -/
def Identity.classes : Identity → List OperandClass
  | .load => [.register, .address]
  | .store => [.address, .register]
  | .add => [.register, .numeric]
  | .sub => [.register, .numeric]
  | .mul => [.register, .numeric]
  | .div => [.register, .numeric]
  | .mov => [.register, .numeric]
  | .inc => [.register]
  | .jmp => [.address]
  | .nop => []
  | .hlt => []

/-- The operand count of an identity (30_encoding.md R84). -/
def Identity.count (id : Identity) : Nat := id.classes.length

/-- The encoded length in bytes: 1 + operand count (30_encoding.md R80, R84). -/
def Identity.len (id : Identity) : Nat := 1 + id.count

/-- The byte offset of an operand from the opcode byte (30_encoding.md R81). -/
def Position.offset : Position → Nat
  | .operand1 => 1
  | .operand2 => 2

/-- Classification of an operand byte by value alone (30_encoding.md R83). -/
def classify (b : Byte) : Operand :=
  if h : b.toNat < 8 then .register ⟨b.toNat, h⟩ else .raw b

/-- The operand byte a tag stands for (30_encoding.md R83). -/
def Operand.byte : Operand → Byte
  | .register i => BitVec.ofNat 8 i.val
  | .raw b => b

/-- Decode, given the opcode byte and a way to read each required operand byte: total, and only the
operands the identity has are read (40_instruction_cycle.md R112 to R114). -/
def decodeWith (op : Byte) (operand : Position → Byte) : Instr :=
  match identity op with
  | (.load, _) => .load (classify (operand .operand1)) (classify (operand .operand2))
  | (.store, _) => .store (classify (operand .operand1)) (classify (operand .operand2))
  | (.add, _) => .add (classify (operand .operand1)) (classify (operand .operand2))
  | (.sub, _) => .sub (classify (operand .operand1)) (classify (operand .operand2))
  | (.mul, _) => .mul (classify (operand .operand1)) (classify (operand .operand2))
  | (.div, _) => .div (classify (operand .operand1)) (classify (operand .operand2))
  | (.mov, _) => .mov (classify (operand .operand1)) (classify (operand .operand2))
  | (.inc, _) => .inc (classify (operand .operand1))
  | (.jmp, _) => .jmp (classify (operand .operand1))
  | (.nop, false) => .nop
  | (.nop, true) => .nopUndefined op
  | (.hlt, _) => .hlt

/-- Why a list of bytes holds no instruction. No byte value is ever rejected (30_encoding.md R92):
only a list that ends too early is, and a fetch never reads such a list. -/
inductive DecodeError where
  /-- The list is empty. -/
  | noOpcode
  /-- The list ends before the last operand byte the opcode has. -/
  | missingOperand (identity : Identity)
  deriving DecidableEq, Repr

/-- The instruction at the head of a byte list, and the bytes after it. The opcode byte alone tells
the length (30_encoding.md R87). -/
def decode : List Byte → Except DecodeError (Instr × List Byte)
  | [] => .error .noOpcode
  | op :: rest =>
    let id := (identity op).1
    if rest.length < id.count then .error (.missingOperand id)
    else .ok (decodeWith op fun p => rest.getD (p.offset - 1) 0, rest.drop id.count)

/-- The defined opcode byte of an identity (30_encoding.md R86). -/
def Identity.opcode : Identity → Byte
  | .load => 0x01
  | .store => 0x02
  | .add => 0x03
  | .sub => 0x04
  | .jmp => 0x05
  | .mov => 0x06
  | .inc => 0x07
  | .div => 0x08
  | .mul => 0x09
  | .nop => 0x90
  | .hlt => 0xFF

/-- The identity an instruction has; the video rows are not part of the decoder's table
(30_encoding.md R94). -/
def Instr.identity : Instr → Option Identity
  | .load _ _ => some .load
  | .store _ _ => some .store
  | .add _ _ => some .add
  | .sub _ _ => some .sub
  | .jmp _ => some .jmp
  | .mov _ _ => some .mov
  | .inc _ => some .inc
  | .div _ _ => some .div
  | .mul _ _ => some .mul
  | .nop => some .nop
  | .hlt => some .hlt
  | .nopUndefined _ => some .nop
  | .fill _ => none
  | .clear _ => none

/-- The operand tags of an instruction, in encoding order. -/
def Instr.operands : Instr → List Operand
  | .load dst src => [dst, src]
  | .store dst src => [dst, src]
  | .add dst operand => [dst, operand]
  | .sub dst operand => [dst, operand]
  | .jmp target => [target]
  | .mov dst operand => [dst, operand]
  | .inc dst => [dst]
  | .div dst operand => [dst, operand]
  | .mul dst operand => [dst, operand]
  | .nop => []
  | .hlt => []
  | .nopUndefined _ => []
  | .fill _ => []
  | .clear _ => []

/-- The bytes of an instruction in stream order (30_encoding.md R81, R86). None for the video rows:
they have no encoding in the instruction stream (44_video.md R182, R183). -/
def encode : Instr → Option (List Byte)
  | .nopUndefined op => some [op]
  | i => i.identity.map fun id => id.opcode :: i.operands.map Operand.byte

/-- The value the document declares for a video opcode, in a namespace no byte of the instruction
stream selects (30_encoding.md R94). -/
def Instr.videoOpcode : Instr → Option Byte
  | .fill _ => some 0x01
  | .clear _ => some 0x02
  | _ => none

/-- Byte k of an instruction whose bits are w, bit 0 the least significant bit of the first byte,
with every bit above nbits 0 (30_encoding.md R97 gives the bytes in stream order). -/
def tableByte (nbits w k : Nat) : Byte := BitVec.ofNat 8 (w % 2 ^ nbits / 2 ^ (8 * k))

/-- The three bytes, the longest instruction's, of a table word. -/
def tableBytes (nbits w : Nat) : List Byte :=
  [tableByte nbits w 0, tableByte nbits w 1, tableByte nbits w 2]

/-- The instruction the decoder reads from a table word. -/
def decodeTableWord (nbits w : Nat) : Option Instr :=
  match decode (tableBytes nbits w) with
  | .ok (i, _) => some i
  | .error _ => none

end Sys2Proof
end

