-- ==== Sys2Proof/Machine/Flags.lean ====
section
/-! DEFINITION. The arithmetic unit (42_arithmetic.md R150): unsigned 8-bit operations, each computed
exactly on the operands' values and then taken modulo 256. No operation writes the flags register
(10_state.md R29; R150), so there is no flag computation; the unit's one status output is the
zero-divisor detect (R156), here the absence of a quotient. -/

namespace Sys2Proof.Machine

/-- `a +8 b` (R150). -/
def add8 (a b : Byte) : Byte := BitVec.ofNat 8 (a.toNat + b.toNat)

/-- `a -8 b`, a the minuend: the difference taken in 0 to 255 (R150). -/
def sub8 (a b : Byte) : Byte := BitVec.ofInt 8 ((a.toNat : Int) - (b.toNat : Int))

/-- `a *8 b`: the low 8 bits of the product (R150). -/
def mul8 (a b : Byte) : Byte := BitVec.ofNat 8 (a.toNat * b.toNat)

/-- `a /u b`: the floor quotient, and no value for a zero divisor (R150). -/
def divU (a b : Byte) : Option Byte :=
  if b.toNat = 0 then none else some (BitVec.ofNat 8 (a.toNat / b.toNat))

end Sys2Proof.Machine
end

