-- ==== Sys2Proof/Config.lean ====
section
/-! DEFINITION. The parameters the hardware leaves open (00_scope.md R7; 92_eei_decisions.md D4,
D19). None has a body: no proof can rest on a value of one. -/

namespace Sys2Proof

/-- How many bytes of backing store lie above the 256 reachable ones: headroom no instruction and
no fetch can select (20_memory.md R51). -/
opaque Config.headroom : Nat

/-- MEM_SIZE, the size of the backing store: at least 256 (00_scope.md R7). Only load_program's
length limit depends on it (70_reset_and_hazards.md R237). -/
def Config.memSize : Nat := Config.headroom + 256

/-- VIDEO_PIXELS, the length of video memory, fixed at construction (00_scope.md R7). -/
opaque Config.videoPixels : Nat

/-- VIDEO_BASELINE, the colour every pixel holds after construction (00_scope.md R7). -/
opaque Config.videoBaseline : Pixel

end Sys2Proof
end

