-- ==== Sys2Proof/Machine/State.lean ====
section
/-! DEFINITION. The architectural state (10_state.md R20), the reasons a step stops, and the state
after construction (10_state.md R41; 70_reset_and_hazards.md R231). -/

namespace Sys2Proof.Machine

/-- The eight general registers; none is hardwired and none has a special role (10_state.md R21). -/
structure Regs where
  r0 : Byte
  r1 : Byte
  r2 : Byte
  r3 : Byte
  r4 : Byte
  r5 : Byte
  r6 : Byte
  r7 : Byte
  deriving DecidableEq, Repr

/-- The run state (10_state.md R30). -/
inductive Run where
  | running
  | halted
  deriving DecidableEq, Repr

/-- General memory: the cells that do not hold 0, by strictly rising address (log 14). -/
abbrev Memory := List Host.Cell

/-- Video memory: the pixels that do not hold VIDEO_BASELINE, by strictly rising index (log 14). -/
abbrev Video := List (Nat × Pixel)

/-- The state, exactly the tuple of 10_state.md R20. -/
structure State where
  /-- x[0] to x[7] (R21). -/
  regs : Regs
  /-- The program counter: the address of the next opcode byte (R25). -/
  pc : Byte
  /-- The stack pointer: reserved, no instruction reads or writes it (R28). -/
  sp : Byte
  /-- The flags register: reserved, no instruction reads or writes it (R29). -/
  flags : Byte
  /-- Running or Halted (R30). -/
  run : Run
  /-- M[0] to M[255] (R32). -/
  mem : Memory
  /-- V[0] to V[VIDEO_PIXELS - 1] (R33). -/
  video : Video
  deriving DecidableEq, Repr

/-- The errors a step can raise (60_exceptions.md R190). A failed step hands the error to the host
and changes no state (R196); in the model it is the fault outcome (R205, log 6; safe). -/
inductive Fault where
  /-- Raised by Load, Add, Sub, Mul, Div, Mov, Inc (operand1) and Store (operand2) when the operand
  byte of a register-class position is 8 to 255 (R191; safe). -/
  | invalidRegister (position : Position) (byte : Byte)
  /-- Raised by Div when the resolved divisor is 0 (R192; safe). -/
  | divideByZero
  /-- Raised by Load (operand2), Store (operand1) and Jmp (operand1) when the operand byte of an
  address-class position is 0 to 7: the spec's own error kind (R193, decision D5, log 5; safe). -/
  | invalidAddress (position : Position) (byte : Byte)
  deriving DecidableEq, Repr

/-- Why the model gives no meaning. No step from any state is refused: a step decodes no video
opcode. -/
inductive Refusal where
  /-- An instruction whose meaning is not written yet; no arm of exec raises it (safe). -/
  | notModelled (mnemonic : String)
  /-- Raised by execFill and execClear: the spec gives the video opcodes no effect and asks a model
  to refuse them by name (44_video.md R181 to R183, log 10; safe). -/
  | videoNotDispatched (mnemonic : String)
  /-- Raised by the host operation loadProgram for an image longer than MEM_SIZE, which the spec
  makes a precondition (70_reset_and_hazards.md R237, log 16; safe). -/
  | imageTooLong (length : Nat)
  deriving DecidableEq, Repr

/-- The state after construction and after reset (10_state.md R41; 70_reset_and_hazards.md R231,
R233): zeroed registers and memory, Running, every pixel VIDEO_BASELINE. -/
def State.reset : State where
  regs := ⟨0, 0, 0, 0, 0, 0, 0, 0⟩
  pc := 0
  sp := 0
  flags := 0
  run := .running
  mem := []
  video := []

end Sys2Proof.Machine
end

