-- ==== Sys2Proof/Machine/Ops.lean ====
section
/-! DEFINITION. The named operations over registers, program counter, run state, general memory and
video memory, and raising an error: the one shared operation of every failing step. -/

namespace Sys2Proof.Machine

/-- What executing an instruction answers. -/
abbrev Answer := Host.Outcome State Fault Refusal

/-! ### The register file (10_state.md R21 to R24) -/

/-- read_register: the register with index i (R23). -/
def Regs.read (x : Regs) (i : RegIdx) : Byte :=
  match i with
  | 0 => x.r0
  | 1 => x.r1
  | 2 => x.r2
  | 3 => x.r3
  | 4 => x.r4
  | 5 => x.r5
  | 6 => x.r6
  | 7 => x.r7

/-- write_register: every register is an ordinary cell, none is hardwired (R21, R23). -/
def Regs.write (x : Regs) (i : RegIdx) (v : Byte) : Regs :=
  match i with
  | 0 => { x with r0 := v }
  | 1 => { x with r1 := v }
  | 2 => { x with r2 := v }
  | 3 => { x with r3 := v }
  | 4 => { x with r4 := v }
  | 5 => { x with r5 := v }
  | 6 => { x with r6 := v }
  | 7 => { x with r7 := v }

/-- `x[i]` (00_scope.md R10). -/
def State.readReg (s : State) (i : RegIdx) : Byte := s.regs.read i

/-- `x[i] <- v` (00_scope.md R10). -/
def State.writeReg (s : State) (i : RegIdx) (v : Byte) : State :=
  { s with regs := s.regs.write i v }

/-! ### Program counter and run state (10_state.md R25 to R27, R30) -/

/-- `pc <- a` (00_scope.md R10). -/
def State.setPc (s : State) (a : Byte) : State := { s with pc := a }

/-- `pc <- pc +8 n`: the advance wraps modulo 256 (10_state.md R27, decision D3, log 3). -/
def State.advance (s : State) (n : Nat) : State := s.setPc (add8 s.pc (BitVec.ofNat 8 n))

/-- `run <- Halted` (43_control.md R168). -/
def State.halt (s : State) : State := { s with run := .halted }

/-! ### General memory (20_memory.md R50 to R55) -/

/-- What a cell that is not listed holds: construction zeroes memory (10_state.md R41). -/
def Memory.unlisted : Byte := 0

/-- The byte at an address. -/
def Memory.lookup : Memory → Nat → Byte
  | [], _ => Memory.unlisted
  | (k, v) :: m, a => if k = a then v else Memory.lookup m a

/-- The list without an address. -/
def Memory.erase (a : Nat) : Memory → Memory
  | [] => []
  | (k, v) :: m => if k = a then Memory.erase a m else (k, v) :: Memory.erase a m

/-- The list with a cell put before the first higher address. -/
def Memory.insert (a : Nat) (v : Byte) : Memory → Memory
  | [] => [(a, v)]
  | (k, w) :: m => if a < k then (a, v) :: (k, w) :: m else (k, w) :: Memory.insert a v m

/-- The list with the byte at an address replaced; writing what an unlisted cell holds unlists it. -/
def Memory.put (m : Memory) (a : Nat) (v : Byte) : Memory :=
  if v = Memory.unlisted then Memory.erase a m else Memory.insert a v (Memory.erase a m)

/-- The canonical form from an address on: addresses strictly rising and below 256, no cell that
holds what an unlisted one does. -/
def Memory.wfFrom : Nat → Memory → Bool
  | _, [] => true
  | lo, (k, v) :: m =>
    decide (lo ≤ k) && decide (k < 256) && decide (v ≠ Memory.unlisted) && Memory.wfFrom (k + 1) m

/-- The canonical form of general memory. -/
def Memory.wf (m : Memory) : Bool := Memory.wfFrom 0 m

/-- `MemRead(a, 1)`: total, every address is backed, and no side effect (20_memory.md R52, R54). -/
def State.memRead (s : State) (a : Byte) : Byte := Memory.lookup s.mem a.toNat

/-- `MemWrite(a, 1, v)`: one cell, no other effect (20_memory.md R55). -/
def State.memWrite (s : State) (a v : Byte) : State := { s with mem := Memory.put s.mem a.toNat v }

/-! ### Video memory (10_state.md R33; 70_reset_and_hazards.md R240) -/

/-- The pixel at an index of the canonical list. -/
def Video.lookup : Video → Nat → Pixel
  | [], _ => Config.videoBaseline
  | (k, p) :: v, n => if k = n then p else Video.lookup v n

/-- The canonical form from an index on: indices strictly rising and below VIDEO_PIXELS, no pixel
at the baseline. -/
def Video.wfFrom : Nat → Video → Bool
  | _, [] => true
  | lo, (k, p) :: v =>
    decide (lo ≤ k) && decide (k < Config.videoPixels) && decide (p ≠ Config.videoBaseline) &&
      Video.wfFrom (k + 1) v

/-- The canonical form of video memory. -/
def Video.wf (v : Video) : Bool := Video.wfFrom 0 v

/-- `V[k]`, for k below VIDEO_PIXELS (00_scope.md R10). -/
def State.pixel (s : State) (k : Nat) : Pixel := Video.lookup s.video k

/-- The read-only snapshot: VIDEO_PIXELS triples, entry k is V[k] (70_reset_and_hazards.md R240). -/
def State.snapshot (s : State) : List Pixel := (List.range Config.videoPixels).map s.pixel

/-! ### Errors (60_exceptions.md R190, R196, R197) -/

/-- `raise E(info)`: the step ends, no state is changed by it, and the error goes to the host
(00_scope.md R10; R196). There is no vector, no saved pc and no mode to change (R197), and so no
return from one (R200). -/
def raise (f : Fault) : Answer := .fault f

/-- Go on with a resolved operand, or raise the error its resolution ended in
(40_instruction_cycle.md R119: every check comes before any write). -/
def resolve {α : Type} (r : Except Fault α) (k : α → Answer) : Answer :=
  match r with
  | .ok a => k a
  | .error f => raise f

/-- The error output's code (R190); 0 is no error. -/
def Fault.code : Fault → Nat
  | .invalidRegister _ _ => 1
  | .divideByZero => 2
  | .invalidAddress _ _ => 3

end Sys2Proof.Machine
end

