-- ==== Sys2Proof/Machine/Operands.lean ====
section
/-! DEFINITION. Operand resolution by opcode and position (40_instruction_cycle.md R115 to R118). -/

namespace Sys2Proof.Machine

/-- `reg`: a register-class operand; a byte of 8 or more is never reduced and never aliases into
memory (R116). -/
def regOf (p : Position) : Operand → Except Fault RegIdx
  | .register i => .ok i
  | .raw b => .error (.invalidRegister p b)

/-- `addr`: an address-class operand; a register tag is neither a low address nor an indirect one
(R117, decision D5, log 5). -/
def addrOf (p : Position) : Operand → Except Fault Byte
  | .register i => .error (.invalidAddress p (Operand.register i).byte)
  | .raw b => .ok b

/-- `num`: a numeric-class operand, a register's current value or the byte itself; it never raises
(R118, decision D1, log 1). -/
def numOf (s : State) : Operand → Byte
  | .register i => s.readReg i
  | .raw b => b

/-- The shape of Add, Sub, Mul and Mov: operand1 is checked, the result is computed from the old
register and the numeric operand, and pc advances by 3 (format RN, 30_encoding.md R82). -/
def regNum (f : Byte → Byte → Byte) (dst operand : Operand) (s : State) : Answer :=
  resolve (regOf .operand1 dst) fun d =>
    .next ((s.writeReg d (f (s.readReg d) (numOf s operand))).advance 3)

end Sys2Proof.Machine
end

