-- ==== Sys2Proof/Machine/Arithmetic.lean ====
section
/-! DEFINITION. Add, Sub, Mul, Div and Inc (42_arithmetic.md). -/

namespace Sys2Proof.Machine

/-- Add: `x[dst] <- x[dst] +8 operand` (R151). -/
def execAdd (dst operand : Operand) (s : State) : Answer := regNum add8 dst operand s

/-- Sub: `x[dst] <- x[dst] -8 operand`, the register the minuend (R152). -/
def execSub (dst operand : Operand) (s : State) : Answer := regNum sub8 dst operand s

/-- Mul: `x[dst] <- x[dst] *8 operand` (R153). -/
def execMul (dst operand : Operand) (s : State) : Answer := regNum mul8 dst operand s

/-- Div: `x[dst] <- x[dst] /u operand`; a zero divisor raises after both class checks (R154). -/
def execDiv (dst operand : Operand) (s : State) : Answer :=
  resolve (regOf .operand1 dst) fun d =>
    match divU (s.readReg d) (numOf s operand) with
    | none => raise .divideByZero
    | some q => .next ((s.writeReg d q).advance 3)

/-- Inc: `x[dst] <- x[dst] +8 1`, two bytes long (R155). -/
def execInc (dst : Operand) (s : State) : Answer :=
  resolve (regOf .operand1 dst) fun d =>
    .next ((s.writeReg d (add8 (s.readReg d) 1)).advance 2)

end Sys2Proof.Machine
end

