-- ==== Sys2Proof/Machine/Control.lean ====
section
/-! DEFINITION. Jmp, Nop, the undefined opcode bytes and Hlt (43_control.md). -/

namespace Sys2Proof.Machine

/-- Jmp: `pc <- target`, absolute, and no length is added (R165). -/
def execJmp (target : Operand) (s : State) : Answer :=
  resolve (addrOf .operand1 target) fun a => .next (s.setPc a)

/-- Nop: pc advances by 1 (R166). -/
def execNop (s : State) : Answer := .next (s.advance 1)

/-- An undefined opcode byte executes as Nop, whatever the byte; its diagnostic is an output of the
step (R167; 60_exceptions.md R203). -/
def execNopUndefined (_op : Byte) (s : State) : Answer := .next (s.advance 1)

/-- Hlt: `run <- Halted`, pc not written (R168, decision D16, log 12). -/
def execHlt (s : State) : Answer := .next s.halt

end Sys2Proof.Machine
end

