-- ==== Sys2Proof/Machine/DataTransfer.lean ====
section
/-! DEFINITION. Load, Store and Mov (41_data_transfer.md). -/

namespace Sys2Proof.Machine

/-- Load: `x[dst] <- M[src]` (R140). -/
def execLoad (dst src : Operand) (s : State) : Answer :=
  resolve (regOf .operand1 dst) fun d =>
    resolve (addrOf .operand2 src) fun a =>
      .next ((s.writeReg d (s.memRead a)).advance 3)

/-- Store: `M[dst] <- x[src]`, the address operand checked first (R141). -/
def execStore (dst src : Operand) (s : State) : Answer :=
  resolve (addrOf .operand1 dst) fun a =>
    resolve (regOf .operand2 src) fun r =>
      .next ((s.memWrite a (s.readReg r)).advance 3)

/-- Mov: `x[dst] <- operand` (R142). -/
def execMov (dst operand : Operand) (s : State) : Answer :=
  regNum (fun _ v => v) dst operand s

end Sys2Proof.Machine
end

