-- ==== Sys2Proof/Machine/Video.lean ====
section
/-! DEFINITION. Fill and Clear (44_video.md): declared, never decoded, never executed. The spec gives
them no effect and asks a model to refuse them by name (R181 to R183; log 10). -/

namespace Sys2Proof.Machine

/-- Fill: "not dispatched; no encoding in the instruction stream; no pseudocode" (R182). -/
def execFill (_operands : List Byte) (_s : State) : Answer := .refused (.videoNotDispatched "Fill")

/-- Clear: as Fill (R183). -/
def execClear (_operands : List Byte) (_s : State) : Answer :=
  .refused (.videoNotDispatched "Clear")

end Sys2Proof.Machine
end

