-- ==== Sys2Proof/Machine/Dispatch.lean ====
section
/-! DEFINITION. The execute stage: one arm per instruction (40_instruction_cycle.md R120). -/

namespace Sys2Proof.Machine

def exec (i : Instr) (s : State) : Host.Outcome State Fault Refusal :=
  match i with
  | .load dst src => Sys2Proof.Machine.execLoad dst src s
  | .store dst src => Sys2Proof.Machine.execStore dst src s
  | .add dst operand => Sys2Proof.Machine.execAdd dst operand s
  | .sub dst operand => Sys2Proof.Machine.execSub dst operand s
  | .jmp target => Sys2Proof.Machine.execJmp target s
  | .mov dst operand => Sys2Proof.Machine.execMov dst operand s
  | .inc dst => Sys2Proof.Machine.execInc dst s
  | .div dst operand => Sys2Proof.Machine.execDiv dst operand s
  | .mul dst operand => Sys2Proof.Machine.execMul dst operand s
  | .nop => Sys2Proof.Machine.execNop s
  | .hlt => Sys2Proof.Machine.execHlt s
  | .nopUndefined op => Sys2Proof.Machine.execNopUndefined op s
  | .fill operands => Sys2Proof.Machine.execFill operands s
  | .clear operands => Sys2Proof.Machine.execClear operands s

end Sys2Proof.Machine
end

