-- ==== Sys2Proof/Machine/Fetch.lean ====
section
/-! DEFINITION. The fetch unit (40_instruction_cycle.md R111, R112), the accesses a step makes
(20_memory.md R56), and placing an instruction's bytes where the next fetch reads them. -/

namespace Sys2Proof.Machine

/-- The address of byte k of the instruction at pc: addresses are taken modulo 256 (R112,
decision D3, log 3). -/
def State.fetchAddr (s : State) (k : Nat) : Byte := add8 s.pc (BitVec.ofNat 8 k)

/-- The byte fetched at offset k from pc. -/
def State.fetchByte (s : State) (k : Nat) : Byte := s.memRead (s.fetchAddr k)

/-- Fetch and decode: the opcode byte at pc, and each operand byte the identity has (R111 to R114). -/
def State.fetch (s : State) : Instr :=
  decodeWith (s.memRead s.pc) fun p => s.fetchByte p.offset

/-- The three bytes at pc, the longest instruction's (30_encoding.md R81). -/
def State.fetchWindow (s : State) : List Byte := [s.fetchByte 0, s.fetchByte 1, s.fetchByte 2]

/-- The addresses the fetch of a Running step reads: pc, then one for each operand the opcode has
(R111, R112, decision D18, log 19). -/
def State.fetchReads (s : State) : List Byte :=
  s.pc :: ((List.range (identity (s.memRead s.pc)).1.count).map fun k => s.fetchAddr (k + 1))

/-- The address an instruction reads after its fetch: Load's, once both operands are of their class
(20_memory.md R56). -/
def dataReads : Instr → List Byte
  | .load (.register _) (.raw a) => [a]
  | _ => []

/-- The address an instruction writes: Store's, once both operands are of their class
(20_memory.md R56). -/
def dataWrites : Instr → List Byte
  | .store (.raw a) (.register _) => [a]
  | _ => []

/-- The addresses a step reads, in order; a step in Halted reads none (20_memory.md R56;
decision D14, log 19). -/
def State.stepReads (s : State) : List Byte :=
  match s.run with
  | .halted => []
  | .running => s.fetchReads ++ dataReads s.fetch

/-- The addresses a step writes (20_memory.md R56). -/
def State.stepWrites (s : State) : List Byte :=
  match s.run with
  | .halted => []
  | .running => dataWrites s.fetch

/-- The bytes of a list placed from byte k of the instruction at pc on. -/
def State.placeBytes (s : State) (k : Nat) : List Byte → State
  | [] => s
  | b :: bs => (s.memWrite (s.fetchAddr k) b).placeBytes (k + 1) bs

end Sys2Proof.Machine
end

