-- ==== Sys2Proof/Machine/Step.lean ====
section
/-! DEFINITION. One step (40_instruction_cycle.md R110, R120). -/

namespace Sys2Proof.Machine

/-- One step: in Halted nothing happens (R110), else the instruction at pc is fetched, decoded and
executed (R111 to R120). pc keeps the opcode's address until the meaning writes it (10_state.md
R26). -/
def step (s : State) : Host.Outcome State Fault Refusal :=
  match s.run with
  | .halted => .next s
  | .running => exec s.fetch s

/-- A state with a table word's three bytes at pc and in Running, so that the next step runs it
(log 15). -/
def State.withFetchWord (s : State) (nbits w : Nat) : State :=
  { s.placeBytes 0 (tableBytes nbits w) with run := .running }

end Sys2Proof.Machine
end

