-- ==== Sys2Proof/Machine/HostPort.lean ====
section
/-! DEFINITION. The operations and outputs the engine exposes to the host (70_reset_and_hazards.md
R230): construct and reset, load_program, step with its outputs; and the end of a run
(40_instruction_cycle.md R126). The video snapshot is State.snapshot. -/

namespace Sys2Proof.Machine

/-- The output `result` of a step (40_instruction_cycle.md R125). -/
inductive StepResult where
  | ok
  | err (f : Fault)
  deriving DecidableEq, Repr

/-- The outputs of one step (40_instruction_cycle.md R125): they belong to the step and are not
state (60_exceptions.md R199, decision D12, log 11). -/
structure StepOutputs where
  result : StepResult
  invalidOpcode : Bool
  run : Run
  deriving DecidableEq, Repr

/-- The outputs after construction, before any step (10_state.md R41). -/
def StepOutputs.initial : StepOutputs := ⟨.ok, false, .running⟩

/-- The error output's code, 0 for Ok (60_exceptions.md R190). -/
def StepResult.code : StepResult → Nat
  | .ok => 0
  | .err f => f.code

/-- The diagnostic of the step about to run: the opcode byte at pc is undefined, and the engine is
Running (40_instruction_cycle.md R110, R113, R125; 60_exceptions.md R203). -/
def State.undefinedOpcode (s : State) : Bool :=
  match s.run with
  | .halted => false
  | .running => (identity (s.memRead s.pc)).2

/-- The host's step: the next state with Ok and the diagnostic, or the same state with Err
(40_instruction_cycle.md R121; 60_exceptions.md R196, decision D6, log 6). A refusal is passed on;
no step is refused. -/
def hostStep (s : State) : Except Refusal (State × StepOutputs) :=
  match step s with
  | .next t => .ok (t, ⟨.ok, s.undefinedOpcode, t.run⟩)
  | .fault f => .ok (s, ⟨.err f, false, s.run⟩)
  | .refused r => .error r

/-! ### The end of a run (40_instruction_cycle.md R126) -/

/-- The final state of a program: the state in which run = Halted (R126). A state whose step
returns Err is Running, and so is never final (R126; 60_exceptions.md R205). -/
abbrev State.Final (s : State) : Prop := s.run = .halted

/-- The three ways a run ends (R126). -/
inductive RunEnd where
  /-- (a) Hlt has executed: the only end the engine itself produces; the state is final. -/
  | halted (s : State)
  /-- (b) External stop: the host stops calling step, at a step boundary of its choosing. -/
  | stopped (s : State)
  /-- (c) The step from this state returned Err: a fault, never final; the engine is still Running
  and stepping again makes no progress. -/
  | failed (s : State) (f : Fault)
  deriving DecidableEq, Repr

/-- The engine stepped repeatedly until an explicit halt, an error, or the external stop, which the
host makes after at most that many steps (R126; log 23). A refusal is passed on; no step is
refused. -/
def hostRun : Nat → State → Except Refusal RunEnd
  | 0, s => .ok (if s.Final then .halted s else .stopped s)
  | k + 1, s =>
    if s.Final then .ok (.halted s)
    else match step s with
      | .next t => hostRun k t
      | .fault f => .ok (.failed s f)
      | .refused r => .error r

/-! ### Reset and load_program -/

/-- Reset: construction done again, from any state (70_reset_and_hazards.md R233, decision D9,
log 8). -/
def hostReset (_s : State) : State := State.reset

/-- What the host hands to load_program: the image's bytes, or a source that cannot be read
(70_reset_and_hazards.md R236). -/
inductive ImageSource where
  | readable (bytes : List Byte)
  | unreadable
  deriving DecidableEq, Repr

/-- What load_program returns (70_reset_and_hazards.md R236). -/
inductive LoadReply where
  | loaded (count : Nat)
  | ioError
  deriving DecidableEq, Repr

/-- Memory with bytes at rising addresses from one on. -/
def Memory.putList (m : Memory) : Nat → List Byte → Memory
  | _, [] => m
  | a, b :: bs => Memory.putList (Memory.put m a b) (a + 1) bs

/-- General memory after a load: cleared, then the image from address 0; bytes at offset 256 and
above land in the headroom, which is not state (70_reset_and_hazards.md R236, R237). -/
def Memory.ofImage (bytes : List Byte) : Memory := Memory.putList [] 0 (bytes.take 256)

/-- load_program: it writes general memory and nothing else (70_reset_and_hazards.md R236, R241,
decision D10, log 9); a source that cannot be read leaves memory as it was; an image longer than
MEM_SIZE breaks the precondition of R237 and is refused (log 16). -/
def loadProgram (source : ImageSource) (s : State) : Except Refusal (State × LoadReply) :=
  match source with
  | .unreadable => .ok (s, .ioError)
  | .readable bytes =>
    if bytes.length ≤ Config.memSize then
      .ok ({ s with mem := Memory.ofImage bytes }, .loaded bytes.length)
    else .error (.imageTooLong bytes.length)

end Sys2Proof.Machine
end

