-- ==== Sys2Proof/Safety.lean ====
section
/-! DEFINITION. What counts as a sound state, and the words the statements use: the invariants of
10_state.md R35, frames, and an outcome with its state rewritten. -/

namespace Sys2Proof.Machine

/-- The invariants every step boundary keeps (10_state.md R35): the widths and the run state are
R35's by typing; sp and flags are 0, every pixel is VIDEO_BASELINE, and both memories stand in
their canonical form. -/
structure State.Inv (s : State) : Prop where
  mem_wf : Memory.wf s.mem = true
  video_wf : Video.wf s.video = true
  sp_zero : s.sp = 0
  flags_zero : s.flags = 0
  video_baseline : ∀ k, s.pixel k = Config.videoBaseline

/-- The part of the state no dispatched instruction writes (10_state.md R28, R29, R33). -/
structure SameReserved (s t : State) : Prop where
  sp : t.sp = s.sp
  flags : t.flags = s.flags
  video : t.video = s.video

/-- Every byte of general memory reads as before, but those of a list. -/
def SameMemoryBut (written : List Byte) (s t : State) : Prop :=
  ∀ a : Byte, a ∉ written → t.memRead a = s.memRead a

/-- Every general register reads as before, but those of a list. -/
def SameRegsBut (written : List RegIdx) (s t : State) : Prop :=
  ∀ r : RegIdx, r ∉ written → t.readReg r = s.readReg r

/-- The frame of an instruction that ends in Running or leaves the run state alone: only the listed
registers, the listed bytes of memory and pc may differ. -/
structure Frame (regs : List RegIdx) (bytes : List Byte) (s t : State) : Prop where
  regs : SameRegsBut regs s t
  mem : SameMemoryBut bytes s t
  run : t.run = s.run
  reserved : SameReserved s t

/-- The general registers an instruction writes (10_state.md R22). -/
def destRegs : Instr → List RegIdx
  | .load (.register d) _ => [d]
  | .add (.register d) _ => [d]
  | .sub (.register d) _ => [d]
  | .mov (.register d) _ => [d]
  | .inc (.register d) => [d]
  | .div (.register d) _ => [d]
  | .mul (.register d) _ => [d]
  | _ => []

/-- `num(b)` as 40_instruction_cycle.md R118 writes it, from the operand byte: below 8 the register's
current value (decision D1, log 1), else the byte itself. -/
def numericValue (s : State) (b : Byte) : Byte :=
  if h : b.toNat < 8 then s.readReg ⟨b.toNat, h⟩ else b

/-- An answer with its next state, if any, rewritten. -/
def mapNext (f : State → State) : Answer → Answer
  | .next s => .next (f s)
  | .fault e => .fault e
  | .refused r => .refused r

/-- The next state an answer gives, if any. -/
def nextOf : Answer → Option State
  | .next s => some s
  | .fault _ => none
  | .refused _ => none

/-- The error an answer raises, if any. -/
def faultOf : Answer → Option Fault
  | .next _ => none
  | .fault f => some f
  | .refused _ => none

end Sys2Proof.Machine
end

