-- ==== Sys2Proof/Certificates/Slice0/Obligations.lean ====
section
/-! DEFINITION. The statements for the provers. A docstring that names a decision D<n> of
92_eei_decisions.md says that the clause is the spec's own choice, and the log entry that records
it. -/

open Sys2Proof Sys2Proof.Machine

/-! ### Reset and the invariants -/

/-- 70_reset_and_hazards.md R231: the state after construction, and the length of video memory
fixed from then on. -/
def Obligations.ConstructionZeroesEverythingAndStartsRunning : Prop :=
  (∀ i, State.reset.readReg i = 0) ∧ State.reset.pc = 0 ∧ State.reset.sp = 0 ∧
  State.reset.flags = 0 ∧ State.reset.run = .running ∧ (∀ a, State.reset.memRead a = 0) ∧
  (∀ k, State.reset.pixel k = Config.videoBaseline) ∧
  (∀ s t, step s = .next t → t.snapshot.length = s.snapshot.length)

/-- Reset is construction done again from any state (decision D9 of the spec, log 8), and no run of
steps leaves Halted. (That load_program leaves the run state alone is
LoadProgramWritesMemoryOnly.) -/
def Obligations.ResetIsConstructionFromAnyState : Prop :=
  ∀ s, hostReset s = State.reset ∧ (hostReset s).run = .running ∧
    (s.run = .halted → ∀ n t, Host.Core.run core n s = .next t → t.run = .halted)

/-- The invariants of 10_state.md R35, which the spec derives, hold after construction. -/
def Obligations.ConstructionMeetsTheInvariants : Prop := State.reset.Inv

/-- Every step keeps the invariants of 10_state.md R35 (derived by the spec; that memory is held in
a canonical form is the model's, log 14). -/
def Obligations.EveryStepKeepsTheInvariants : Prop :=
  ∀ s t, s.Inv → step s = .next t → t.Inv

/-- The model's canonical form (log 14) makes equal memories equal data: two canonical lists that
read alike at every address are the same list. -/
def Obligations.CanonicalMemoriesThatReadAlikeAreEqual : Prop :=
  ∀ m m' : Memory, Memory.wf m = true → Memory.wf m' = true →
    (∀ a < 256, Memory.lookup m a = Memory.lookup m' a) → m = m'

/-! ### Encoding -/

/-- Decode undoes encode, whatever bytes follow, for every well-formed instruction that the
instruction stream can hold; which operand is byte 1 is decision D2 (log 2). -/
def Obligations.DecodeUndoesEncode : Prop :=
  ∀ (i : Instr) (id : Identity), i.wellFormed = true → i.identity = some id →
    ∃ bytes, encode i = some bytes ∧ bytes.length = id.len ∧
      ∀ rest, decode (bytes ++ rest) = .ok (i, rest)

/-- Encode undoes decode: what decode answers is well formed and its encoding is exactly the bytes
consumed, so no byte sequence is dropped or aliased. -/
def Obligations.EncodeUndoesDecode : Prop :=
  ∀ bytes i rest, decode bytes = .ok (i, rest) →
    i.wellFormed = true ∧ ∃ used, encode i = some used ∧ used ++ rest = bytes

/-- 40_instruction_cycle.md R113: the total function from opcode bytes to identities, and the
diagnostic. -/
def Obligations.OpcodeByteSelectsIdentity : Prop :=
  identity 0x01 = (.load, false) ∧ identity 0x02 = (.store, false) ∧
  identity 0x03 = (.add, false) ∧ identity 0x04 = (.sub, false) ∧
  identity 0x05 = (.jmp, false) ∧ identity 0x06 = (.mov, false) ∧
  identity 0x07 = (.inc, false) ∧ identity 0x08 = (.div, false) ∧
  identity 0x09 = (.mul, false) ∧ identity 0x90 = (.nop, false) ∧
  identity 0xFF = (.hlt, false) ∧
  (∀ op : Byte, op ∉ [0x01, 0x02, 0x03, 0x04, 0x05, 0x06, 0x07, 0x08, 0x09, 0x90, 0xFF] →
    identity op = (.nop, true))

/-- 30_encoding.md R83: the decoder's tag of an operand byte, by value alone. -/
def Obligations.OperandByteBelowEightIsRegister : Prop :=
  ∀ b : Byte, (b.toNat ≤ 7 → ∃ i : RegIdx, classify b = .register i ∧ i.val = b.toNat) ∧
    (8 ≤ b.toNat → classify b = .raw b)

/-- 30_encoding.md R84: operand count, length and operand classes of each identity. -/
def Obligations.OperandTableGivesCountLengthClasses : Prop :=
  (∀ id ∈ [Identity.add, .sub, .mul, .div, .mov],
    id.count = 2 ∧ id.len = 3 ∧ id.classes = [.register, .numeric]) ∧
  (Identity.load.count = 2 ∧ Identity.load.len = 3 ∧
    Identity.load.classes = [.register, .address]) ∧
  (Identity.store.count = 2 ∧ Identity.store.len = 3 ∧
    Identity.store.classes = [.address, .register]) ∧
  (Identity.inc.count = 1 ∧ Identity.inc.len = 2 ∧ Identity.inc.classes = [.register]) ∧
  (Identity.jmp.count = 1 ∧ Identity.jmp.len = 2 ∧ Identity.jmp.classes = [.address]) ∧
  (Identity.nop.count = 0 ∧ Identity.nop.len = 1 ∧ Identity.nop.classes = []) ∧
  (Identity.hlt.count = 0 ∧ Identity.hlt.len = 1 ∧ Identity.hlt.classes = [])

/-- 30_encoding.md R87: the opcode byte alone tells the length: two streams with the same first
byte are consumed alike, whatever the operand bytes. -/
def Obligations.OpcodeByteAloneTellsLength : Prop :=
  ∀ (op : Byte) (rest : List Byte), (identity op).1.count ≤ rest.length →
    ∃ i, decode (op :: rest) = .ok (i, rest.drop (identity op).1.count) ∧
      i.identity = some (identity op).1

/-- Words written out from 30_encoding.md R86 and the examples of 41 to 43 decode to the
instructions they stand for (a sanity statement; operand order is decision D2, log 2). -/
def Obligations.WrittenOutWordsDecode : Prop :=
  decode [0x01, 0x02, 0x20] = .ok (.load (.register 2) (.raw 0x20), []) ∧
  decode [0x02, 0x20, 0x01] = .ok (.store (.raw 0x20) (.register 1), []) ∧
  decode [0x09, 0x00, 0x0A] = .ok (.mul (.register 0) (.raw 0x0A), []) ∧
  decode [0x05, 0x0A, 0x07] = .ok (.jmp (.raw 0x0A), [0x07])

/-! ### Fetch and the step -/

/-- The fetch addresses are modulo 256 (decision D3, log 3): at 0xFE and 0xFF the instruction's
bytes come from the bottom of memory. -/
def Obligations.FetchWrapsAtTheTopOfMemory : Prop :=
  ∀ s : State, (s.pc = 0xFE → s.fetchWindow = [s.memRead 0xFE, s.memRead 0xFF, s.memRead 0x00]) ∧
    (s.pc = 0xFF → s.fetchWindow = [s.memRead 0xFF, s.memRead 0x00, s.memRead 0x01])

/-- A Running step executes the instruction the bytes at pc decode to, and adds nothing around
exec: pc still holds the opcode's address when exec begins (10_state.md R26). -/
def Obligations.RunningStepExecutesDecodedInstruction : Prop :=
  ∀ (s : State) (i : Instr) (rest : List Byte), s.run = .running →
    decode s.fetchWindow = .ok (i, rest) → i.wellFormed = true ∧ step s = exec i s

/-- A step is total: a next state, or an error raised in Running; never a refusal (derived by the
spec from its pseudocode). -/
def Obligations.StepAlwaysAnswers : Prop :=
  ∀ s : State, (∃ t, step s = .next t) ∨ (∃ f, step s = .fault f ∧ s.run = .running)

/-- A step in Halted changes nothing, reports no error and asserts no diagnostic; that it reads
nothing is decision D14 (log 19). -/
def Obligations.HaltedStepDoesNothing : Prop :=
  ∀ s : State, s.run = .halted → step s = .next s ∧ s.stepReads = [] ∧ s.stepWrites = [] ∧
    hostStep s = .ok (s, ⟨.ok, false, .halted⟩)

/-- Only Hlt changes the run state. -/
def Obligations.OnlyHltStopsTheEngine : Prop :=
  ∀ (i : Instr) (s t : State), exec i s = .next t →
    t.run = s.run ∨ (i = .hlt ∧ t.run = .halted)

/-- After any instruction but Jmp and Hlt that completes, pc has advanced by the length of its
identity, modulo 256 (the wrap is decision D3, log 3). -/
def Obligations.PcAdvancesByEncodedLength : Prop :=
  ∀ (i : Instr) (id : Identity) (s t : State), i.identity = some id → id ≠ .jmp → id ≠ .hlt →
    exec i s = .next t → t.pc.toNat = (s.pc.toNat + id.len) % 256

/-- A step's outcome depends on general memory only at the addresses it reads, and changes it only
at those it writes: at most four reads and one write (20_memory.md R56, derived by the spec). -/
def Obligations.StepDependsOnlyOnBytesItReads : Prop :=
  ∀ (s : State) (m : Memory), s.stepReads.length ≤ 4 ∧ s.stepWrites.length ≤ 1 ∧
    ((∀ a ∈ s.stepReads, Memory.lookup m a.toNat = s.memRead a) →
      (∀ t, step s = .next t → ∃ t', step { s with mem := m } = .next t' ∧ t'.regs = t.regs ∧
        t'.pc = t.pc ∧ t'.run = t.run ∧ SameReserved t t' ∧
        (∀ a ∈ s.stepWrites, t'.memRead a = t.memRead a) ∧
        SameMemoryBut s.stepWrites { s with mem := m } t') ∧
      (∀ f, step s = .fault f → step { s with mem := m } = .fault f))

/-- The model's own way to hand a word to the machine (log 15): the next step of a state a table
word is placed in executes exactly the instruction the decoder reads from that word. -/
def Obligations.PlacedWordIsExecutedNext : Prop :=
  ∀ (s : State) (nbits w : Nat), ∃ i, decodeTableWord nbits w = some i ∧
    step (s.withFetchWord nbits w) = exec i (s.withFetchWord nbits w)

/-! ### Operand resolution -/

/-- 40_instruction_cycle.md R116: a register-class operand is a register index or an error, and
never aliases; and which positions are of the class. -/
def Obligations.RegisterOperandIsIndexOrError : Prop :=
  (∀ (p : Position) (b : Byte),
    (b.toNat ≤ 7 → ∃ i : RegIdx, regOf p (classify b) = .ok i ∧ i.val = b.toNat) ∧
    (8 ≤ b.toNat → regOf p (classify b) = .error (.invalidRegister p b))) ∧
  (∀ id : Identity, id.classes[0]? = some .register ↔
    id ∈ [Identity.load, .add, .sub, .mul, .div, .mov, .inc]) ∧
  (∀ id : Identity, id.classes[1]? = some .register ↔ id = .store)

/-- An address-class operand is the byte itself; below 8 it is InvalidAddress, the spec's own error
(decision D5, log 5). -/
def Obligations.AddressOperandIsByteOrError : Prop :=
  ∀ (p : Position) (b : Byte), (8 ≤ b.toNat → addrOf p (classify b) = .ok b) ∧
    (b.toNat ≤ 7 → addrOf p (classify b) = .error (.invalidAddress p b))

/-- A numeric-class operand byte below 8 means the register's current value (decision D1, log 1),
else the byte itself. -/
def Obligations.NumericOperandIsRegisterValueOrByte : Prop :=
  ∀ (s : State) (b : Byte),
    (∀ i : RegIdx, b.toNat = i.val → numOf s (classify b) = s.readReg i) ∧
    (8 ≤ b.toNat → numOf s (classify b) = b)

/-! ### Data transfer -/

/-- Load completes for every register and every nameable address; the wrap of pc is decision D3
(log 3). -/
def Obligations.LoadCopiesMemoryByteToRegister : Prop :=
  ∀ (s : State) (d : RegIdx) (a : Byte), 8 ≤ a.toNat →
    ∃ t, exec (.load (.register d) (.raw a)) s = .next t ∧ t.readReg d = s.memRead a ∧
      t.pc.toNat = (s.pc.toNat + 3) % 256 ∧ Frame [d] [] s t

/-- Store completes for every nameable address, its own bytes included, and every register, and
writes that one cell; the operand order is decision D2 (log 2), the wrap of pc D3 (log 3). -/
def Obligations.StoreCopiesRegisterToOneCell : Prop :=
  ∀ (s : State) (a : Byte) (r : RegIdx), 8 ≤ a.toNat →
    ∃ t, exec (.store (.raw a) (.register r)) s = .next t ∧ t.memRead a = s.readReg r ∧
      t.pc.toNat = (s.pc.toNat + 3) % 256 ∧ Frame [] [a] s t

/-- Mov completes for every register and every operand byte; a byte below 8 is a register (decision
D1, log 1), and pc wraps (D3, log 3). -/
def Obligations.MovCopiesNumericOperand : Prop :=
  ∀ (s : State) (d : RegIdx) (n : Byte),
    ∃ t, exec (.mov (.register d) (classify n)) s = .next t ∧ t.readReg d = numericValue s n ∧
      t.pc.toNat = (s.pc.toNat + 3) % 256 ∧ Frame [d] [] s t

/-- A Store is seen by every fetch from its address that follows, the very next one included
(derived by the spec). -/
def Obligations.StoreIsSeenByNextFetch : Prop :=
  ∀ (s t : State) (a : Byte) (r : RegIdx) (k : Nat),
    exec (.store (.raw a) (.register r)) s = .next t →
    t.fetchAddr k = a → t.fetchByte k = s.readReg r

/-! ### Arithmetic -/

/-- Add wraps modulo 256; a byte below 8 is a register (decision D1, log 1), and pc wraps (D3,
log 3). -/
def Obligations.AddWritesSumModulo256 : Prop :=
  ∀ (s : State) (d : RegIdx) (n : Byte),
    ∃ t, exec (.add (.register d) (classify n)) s = .next t ∧
      (t.readReg d).toNat = ((s.readReg d).toNat + (numericValue s n).toNat) % 256 ∧
      t.pc.toNat = (s.pc.toNat + 3) % 256 ∧ Frame [d] [] s t

/-- Sub takes the operand from the register and wraps modulo 256; a byte below 8 is a register
(decision D1, log 1), and pc wraps (D3, log 3). -/
def Obligations.SubWritesDifferenceModulo256 : Prop :=
  ∀ (s : State) (d : RegIdx) (n : Byte),
    ∃ t, exec (.sub (.register d) (classify n)) s = .next t ∧
      ((t.readReg d).toNat : Int) =
        (((s.readReg d).toNat : Int) - ((numericValue s n).toNat : Int)) % 256 ∧
      t.pc.toNat = (s.pc.toNat + 3) % 256 ∧ Frame [d] [] s t

/-- Mul keeps the low 8 bits of the product; a byte below 8 is a register (decision D1, log 1), and
pc wraps (D3, log 3). -/
def Obligations.MulWritesProductModulo256 : Prop :=
  ∀ (s : State) (d : RegIdx) (n : Byte),
    ∃ t, exec (.mul (.register d) (classify n)) s = .next t ∧
      (t.readReg d).toNat = ((s.readReg d).toNat * (numericValue s n).toNat) % 256 ∧
      t.pc.toNat = (s.pc.toNat + 3) % 256 ∧ Frame [d] [] s t

/-- Div completes exactly when the divisor is not 0, and writes the floor quotient (which the spec
derives, log 20); an immediate is never 0, a byte below 8 is a register (decision D1, log 1), and pc
wraps (D3, log 3). -/
def Obligations.DivWritesFloorQuotient : Prop :=
  ∀ (s : State) (d : RegIdx) (n : Byte), numericValue s n ≠ 0 →
    ∃ t, exec (.div (.register d) (classify n)) s = .next t ∧
      (t.readReg d).toNat = (s.readReg d).toNat / (numericValue s n).toNat ∧
      t.pc.toNat = (s.pc.toNat + 3) % 256 ∧ Frame [d] [] s t

/-- Inc adds 1 modulo 256 and advances pc by 2; the wrap of pc is decision D3 (log 3). -/
def Obligations.IncAddsOneModulo256 : Prop :=
  ∀ (s : State) (d : RegIdx),
    ∃ t, exec (.inc (.register d)) s = .next t ∧
      (t.readReg d).toNat = ((s.readReg d).toNat + 1) % 256 ∧
      t.pc.toNat = (s.pc.toNat + 2) % 256 ∧ Frame [d] [] s t

/-! ### Control -/

/-- Jmp sets pc to exactly its target, whatever pc was, and adds no length. -/
def Obligations.JmpSetsPcToTarget : Prop :=
  ∀ (s : State) (a : Byte), 8 ≤ a.toNat →
    ∃ t, exec (.jmp (.raw a)) s = .next t ∧ t.pc = a ∧ Frame [] [] s t

/-- Nop advances pc by 1 and changes nothing else; the wrap is decision D3 (log 3). -/
def Obligations.NopOnlyAdvancesPc : Prop :=
  ∀ s : State, ∃ t, exec .nop s = .next t ∧ t.pc.toNat = (s.pc.toNat + 1) % 256 ∧ Frame [] [] s t

/-- An undefined opcode byte at pc, with whatever bytes after it, executes exactly as Nop: the
Running step completes, pc advances by 1 (the wrap is decision D3, log 3) and nothing else changes;
the host sees the diagnostic (D12, log 11). -/
def Obligations.UndefinedOpcodeByteExecutesAsNop : Prop :=
  ∀ (s : State) (op : Byte),
    (∃ t, exec (.nopUndefined op) s = .next t ∧ exec .nop s = .next t ∧
      t.pc.toNat = (s.pc.toNat + 1) % 256 ∧ Frame [] [] s t) ∧
    (s.run = .running → s.memRead s.pc = op → op ∉ definedOpcodes →
      ∃ t, step s = .next t ∧ exec .nop s = .next t ∧
        hostStep s = .ok (t, ⟨.ok, true, .running⟩))

/-- Hlt enters Halted and freezes everything else; that pc keeps the address of the Hlt byte is
decision D16 (log 12). -/
def Obligations.HltHaltsAndFreezesPc : Prop :=
  ∀ s : State, ∃ t, exec .hlt s = .next t ∧ t.run = .halted ∧ t.pc = s.pc ∧
    SameRegsBut [] s t ∧ SameMemoryBut [] s t ∧ SameReserved s t

/-! ### Video opcodes -/

/-- Nothing in the instruction stream decodes to a video opcode, so no Running step executes one
(decision D11, log 10). -/
def Obligations.VideoOpcodesAreNeverDecoded : Prop :=
  (∀ bytes i rest, decode bytes = .ok (i, rest) →
    (∀ operands, i ≠ .fill operands) ∧ ∀ operands, i ≠ .clear operands) ∧
  (∀ s : State, (∀ operands, s.fetch ≠ .fill operands) ∧ ∀ operands, s.fetch ≠ .clear operands)

/-- 44_video.md R182 and R183: declared value, at most two operand bytes, no encoding in the
instruction stream, refused by name, no error. -/
def Obligations.VideoOpcodesAreRefusedByName : Prop :=
  ∀ (operands : List Byte) (s : State),
    exec (.fill operands) s = .refused (.videoNotDispatched "Fill") ∧
    exec (.clear operands) s = .refused (.videoNotDispatched "Clear") ∧
    (Instr.fill operands).videoOpcode = some 0x01 ∧
    (Instr.clear operands).videoOpcode = some 0x02 ∧
    encode (.fill operands) = none ∧ encode (.clear operands) = none ∧
    ((Instr.fill operands).wellFormed = true ↔ operands.length ≤ 2) ∧
    ((Instr.clear operands).wellFormed = true ↔ operands.length ≤ 2)

/-! ### Errors -/

/-- A register-class operand of 8 or more ends the step in InvalidRegister with its position and
byte, in each instruction that has one; operand1 is checked first (decision D8, log 7). -/
def Obligations.RawRegisterOperandRaisesInvalidRegister : Prop :=
  ∀ (s : State) (b : Byte) (o : Operand), 8 ≤ b.toNat →
    exec (.load (.raw b) o) s = .fault (.invalidRegister .operand1 b) ∧
    exec (.add (.raw b) o) s = .fault (.invalidRegister .operand1 b) ∧
    exec (.sub (.raw b) o) s = .fault (.invalidRegister .operand1 b) ∧
    exec (.mul (.raw b) o) s = .fault (.invalidRegister .operand1 b) ∧
    exec (.div (.raw b) o) s = .fault (.invalidRegister .operand1 b) ∧
    exec (.mov (.raw b) o) s = .fault (.invalidRegister .operand1 b) ∧
    exec (.inc (.raw b)) s = .fault (.invalidRegister .operand1 b) ∧
    (∀ a : Byte, 8 ≤ a.toNat →
      exec (.store (.raw a) (.raw b)) s = .fault (.invalidRegister .operand2 b))

/-- An address-class operand below 8 ends the step in InvalidAddress with its position and byte
(decision D5, log 5); operand1 is checked first (D8, log 7). -/
def Obligations.LowAddressOperandRaisesInvalidAddress : Prop :=
  ∀ (s : State) (b : Byte) (d : RegIdx) (o : Operand), b.toNat ≤ 7 →
    exec (.load (.register d) (classify b)) s = .fault (.invalidAddress .operand2 b) ∧
    exec (.store (classify b) o) s = .fault (.invalidAddress .operand1 b) ∧
    exec (.jmp (classify b)) s = .fault (.invalidAddress .operand1 b)

/-- Div by 0 raises DivideByZero, no other instruction and no other divisor does; only a register
operand can be 0 (decision D1, log 1). -/
def Obligations.DivideByZeroIsRaisedByDivAlone : Prop :=
  (∀ (s : State) (d i : RegIdx), s.readReg i = 0 →
    exec (.div (.register d) (.register i)) s = .fault .divideByZero) ∧
  (∀ (i : Instr) (s : State), i.wellFormed = true → exec i s = .fault .divideByZero →
    ∃ d r, i = .div (.register d) (.register r) ∧ s.readReg r = 0)

/-- When two errors apply, operand1's class error is the one reported (decision D8, log 7;
InvalidAddress itself is D5, log 5). -/
def Obligations.FirstOperandErrorIsReported : Prop :=
  (∀ (s : State) (b1 b2 : Byte), 8 ≤ b1.toNat → b2.toNat ≤ 7 →
    exec (.load (classify b1) (classify b2)) s = .fault (.invalidRegister .operand1 b1)) ∧
  (∀ (s : State) (b1 b2 : Byte), b1.toNat ≤ 7 → 8 ≤ b2.toNat →
    exec (.store (classify b1) (classify b2)) s = .fault (.invalidAddress .operand1 b1)) ∧
  (∀ (s : State) (b1 b2 : Byte), 8 ≤ b1.toNat → numericValue s b2 = 0 →
    exec (.div (classify b1) (classify b2)) s = .fault (.invalidRegister .operand1 b1))

/-- A failed step hands the error to the host, changes no state, stays Running, asserts no
diagnostic, and fails in the same way when repeated (decision D6, log 6). -/
def Obligations.FailedStepChangesNothing : Prop :=
  ∀ (s t : State) (out : StepOutputs) (f : Fault), hostStep s = .ok (t, out) →
    out.result = .err f → t = s ∧ out = ⟨.err f, false, .running⟩ ∧ s.run = .running ∧
      hostStep t = .ok (t, out)

/-- The diagnostic is asserted exactly by a Running step that executes an undefined opcode byte,
and such a step is Ok (decision D12, log 11). -/
def Obligations.DiagnosticMarksUndefinedOpcodeSteps : Prop :=
  ∀ s : State, ∃ t out, hostStep s = .ok (t, out) ∧ out.run = t.run ∧
    (out.invalidOpcode = true ↔ s.run = .running ∧ s.memRead s.pc ∉ definedOpcodes) ∧
    (out.invalidOpcode = true → out.result = .ok)

/-! ### The end of a run -/

/-- 40_instruction_cycle.md R126: a program's final state is one in which run = Halted. A Running
step reaches one exactly by executing Hlt, a final state stays as it is however often it is stepped,
and a state whose step raises an error is not final (that the error leaves it Running is decision
D6, log 6). -/
def Obligations.FinalStatesAreReachedByHltAndLast : Prop :=
  (∀ s : State, s.Final ↔ s.run = .halted) ∧
  (∀ s t : State, ¬ s.Final → step s = .next t → (t.Final ↔ s.fetch = .hlt)) ∧
  (∀ s : State, s.Final → ∀ n, Host.Core.run core n s = .next s) ∧
  (∀ (s : State) (f : Fault), step s = .fault f → ¬ s.Final)

/-- 40_instruction_cycle.md R126: a run of at most n steps ends in one of three ways, at a state
that k ≤ n steps reach. It ends (a) halted, in a final state; (b) at the host's external stop, not
final, after all n steps; or (c) at an error, in a state that is not final and from which every
further run ends in that same error (that the state is unchanged is decision D6, log 6; that the
external stop is a number of steps is the model's, log 23). -/
def Obligations.RunEndsHaltedStoppedOrFailed : Prop :=
  ∀ (n : Nat) (s : State), ∃ (k : Nat) (t : State), k ≤ n ∧ Host.Core.run core k s = .next t ∧
    ((t.Final ∧ hostRun n s = .ok (.halted t)) ∨
      (¬ t.Final ∧ k = n ∧ hostRun n s = .ok (.stopped t)) ∨
      (∃ f, ¬ t.Final ∧ step t = .fault f ∧ hostRun n s = .ok (.failed t f) ∧
        ∀ m, hostRun (m + 1) t = .ok (.failed t f)))

/-! ### What instructions leave alone -/

/-- 10_state.md R28: sp is 0 after construction, no instruction writes it and none reads it, so it
is 0 for ever. -/
def Obligations.StackPointerIsZeroAndUnused : Prop :=
  State.reset.sp = 0 ∧
  (∀ (i : Instr) (s : State) (v : Byte),
    exec i { s with sp := v } = mapNext (fun t => { t with sp := v }) (exec i s)) ∧
  (∀ n t, Host.Core.run core n State.reset = .next t → t.sp = 0)

/-- 10_state.md R29: flags is 0 after construction, no instruction writes it and none reads it, so
it is 0 for ever. -/
def Obligations.FlagsAreZeroAndUnused : Prop :=
  State.reset.flags = 0 ∧
  (∀ (i : Instr) (s : State) (v : Byte),
    exec i { s with flags := v } = mapNext (fun t => { t with flags := v }) (exec i s)) ∧
  (∀ n t, Host.Core.run core n State.reset = .next t → t.flags = 0)

/-- No instruction reads or writes video memory (decision D11, log 10). -/
def Obligations.VideoMemoryIsUntouched : Prop :=
  ∀ (i : Instr) (s : State) (v : Video),
    exec i { s with video := v } = mapNext (fun t => { t with video := v }) (exec i s)

/-- No instruction writes a general register but the one its first operand names as destination
(10_state.md R22, derived by the spec). -/
def Obligations.OnlyTheDestinationRegisterChanges : Prop :=
  ∀ (i : Instr) (s t : State), exec i s = .next t → SameRegsBut (destRegs i) s t

/-- Only Store writes memory, the one cell its first operand names, and no instruction the decoder
makes writes a cell below address 8 (decision D5, log 5). -/
def Obligations.OnlyStoreWritesMemoryAboveSeven : Prop :=
  ∀ (i : Instr) (s t : State), exec i s = .next t →
    SameMemoryBut (dataWrites i) s t ∧
    (i.wellFormed = true → ∀ a ∈ dataWrites i, 8 ≤ a.toNat) ∧
    (dataWrites i ≠ [] → ∃ a r, i = .store (.raw a) (.register r))

/-! ### Host operations -/

/-- 70_reset_and_hazards.md R236: load_program clears memory and copies the image from address 0,
returns the count, accepts any bytes, leaves no residue, and leaves memory as it was when the source
cannot be read. -/
def Obligations.LoadProgramReplacesMemory : Prop :=
  (∀ (s : State) (bytes : List Byte), bytes.length ≤ Config.memSize →
    ∃ t, loadProgram (.readable bytes) s = .ok (t, .loaded bytes.length) ∧
      ∀ a : Byte, t.memRead a = if a.toNat < bytes.length then bytes.getD a.toNat 0 else 0) ∧
  (∀ s : State, loadProgram .unreadable s = .ok (s, .ioError))

/-- load_program changes general memory and nothing else (decision D10, log 9), keeps the canonical
form (log 14), and refuses exactly an image longer than MEM_SIZE (decision D15, log 16). -/
def Obligations.LoadProgramWritesMemoryOnly : Prop :=
  ∀ (s : State) (bytes : List Byte),
    (∀ t reply, loadProgram (.readable bytes) s = .ok (t, reply) →
      t = { s with mem := t.mem } ∧ Memory.wf t.mem = true) ∧
    (Config.memSize < bytes.length →
      loadProgram (.readable bytes) s = .error (.imageTooLong bytes.length))

/-- The snapshot has VIDEO_PIXELS entries, and entry k is V[k] (70_reset_and_hazards.md section 2,
the sentence of R240 on its entries). -/
def Obligations.SnapshotListsEveryPixel : Prop :=
  ∀ s : State, s.snapshot.length = Config.videoPixels ∧
    ∀ k, s.snapshot[k]? = if k < Config.videoPixels then some (s.pixel k) else none
end

