-- ==== Sys2Proof/Laws/State.lean ====
section
/-! SUPPORT. One lemma per field per update of State, and the register file's two laws. -/

namespace Sys2Proof.Machine

variable (s : State) (i j : RegIdx) (a b v : Byte) (n k : Nat)

/-! ### writeReg -/

@[simp] theorem State.writeReg_regs : (s.writeReg i v).regs = s.regs.write i v := rfl
@[simp] theorem State.writeReg_pc : (s.writeReg i v).pc = s.pc := rfl
@[simp] theorem State.writeReg_sp : (s.writeReg i v).sp = s.sp := rfl
@[simp] theorem State.writeReg_flags : (s.writeReg i v).flags = s.flags := rfl
@[simp] theorem State.writeReg_run : (s.writeReg i v).run = s.run := rfl
@[simp] theorem State.writeReg_mem : (s.writeReg i v).mem = s.mem := rfl
@[simp] theorem State.writeReg_video : (s.writeReg i v).video = s.video := rfl

/-! ### setPc -/

@[simp] theorem State.setPc_regs : (s.setPc a).regs = s.regs := rfl
@[simp] theorem State.setPc_pc : (s.setPc a).pc = a := rfl
@[simp] theorem State.setPc_sp : (s.setPc a).sp = s.sp := rfl
@[simp] theorem State.setPc_flags : (s.setPc a).flags = s.flags := rfl
@[simp] theorem State.setPc_run : (s.setPc a).run = s.run := rfl
@[simp] theorem State.setPc_mem : (s.setPc a).mem = s.mem := rfl
@[simp] theorem State.setPc_video : (s.setPc a).video = s.video := rfl

/-! ### advance -/

@[simp] theorem State.advance_regs : (s.advance n).regs = s.regs := rfl
@[simp] theorem State.advance_pc : (s.advance n).pc = add8 s.pc (BitVec.ofNat 8 n) := rfl
@[simp] theorem State.advance_sp : (s.advance n).sp = s.sp := rfl
@[simp] theorem State.advance_flags : (s.advance n).flags = s.flags := rfl
@[simp] theorem State.advance_run : (s.advance n).run = s.run := rfl
@[simp] theorem State.advance_mem : (s.advance n).mem = s.mem := rfl
@[simp] theorem State.advance_video : (s.advance n).video = s.video := rfl

/-! ### halt -/

@[simp] theorem State.halt_regs : s.halt.regs = s.regs := rfl
@[simp] theorem State.halt_pc : s.halt.pc = s.pc := rfl
@[simp] theorem State.halt_sp : s.halt.sp = s.sp := rfl
@[simp] theorem State.halt_flags : s.halt.flags = s.flags := rfl
@[simp] theorem State.halt_run : s.halt.run = .halted := rfl
@[simp] theorem State.halt_mem : s.halt.mem = s.mem := rfl
@[simp] theorem State.halt_video : s.halt.video = s.video := rfl

/-! ### memWrite -/

@[simp] theorem State.memWrite_regs : (s.memWrite a v).regs = s.regs := rfl
@[simp] theorem State.memWrite_pc : (s.memWrite a v).pc = s.pc := rfl
@[simp] theorem State.memWrite_sp : (s.memWrite a v).sp = s.sp := rfl
@[simp] theorem State.memWrite_flags : (s.memWrite a v).flags = s.flags := rfl
@[simp] theorem State.memWrite_run : (s.memWrite a v).run = s.run := rfl
@[simp] theorem State.memWrite_mem : (s.memWrite a v).mem = Memory.put s.mem a.toNat v := rfl
@[simp] theorem State.memWrite_video : (s.memWrite a v).video = s.video := rfl

/-! ### The register file -/

@[simp] theorem Regs.read_write_same (x : Regs) : (x.write i v).read i = v := by
  fin_cases i <;> rfl

theorem Regs.read_write_other (x : Regs) (h : j ≠ i) : (x.write i v).read j = x.read j := by
  fin_cases i <;> fin_cases j <;> first | rfl | exact absurd rfl h

@[simp] theorem State.readReg_writeReg_same : (s.writeReg i v).readReg i = v :=
  Regs.read_write_same i v s.regs

theorem State.readReg_writeReg_other (h : j ≠ i) : (s.writeReg i v).readReg j = s.readReg j :=
  Regs.read_write_other i j v s.regs h

/-! ### What a read sees after an update of something else -/

@[simp] theorem State.readReg_setPc : (s.setPc a).readReg i = s.readReg i := rfl
@[simp] theorem State.readReg_advance : (s.advance n).readReg i = s.readReg i := rfl
@[simp] theorem State.readReg_halt : s.halt.readReg i = s.readReg i := rfl
@[simp] theorem State.readReg_memWrite : (s.memWrite a v).readReg i = s.readReg i := rfl
@[simp] theorem State.memRead_writeReg : (s.writeReg i v).memRead b = s.memRead b := rfl
@[simp] theorem State.memRead_setPc : (s.setPc a).memRead b = s.memRead b := rfl
@[simp] theorem State.memRead_advance : (s.advance n).memRead b = s.memRead b := rfl
@[simp] theorem State.memRead_halt : s.halt.memRead b = s.memRead b := rfl
@[simp] theorem State.pixel_writeReg : (s.writeReg i v).pixel k = s.pixel k := rfl
@[simp] theorem State.pixel_setPc : (s.setPc a).pixel k = s.pixel k := rfl
@[simp] theorem State.pixel_advance : (s.advance n).pixel k = s.pixel k := rfl
@[simp] theorem State.pixel_halt : s.halt.pixel k = s.pixel k := rfl
@[simp] theorem State.pixel_memWrite : (s.memWrite a v).pixel k = s.pixel k := rfl

end Sys2Proof.Machine
end

