-- ==== Sys2Proof/Laws/Arithmetic.lean ====
section
/-! SUPPORT. The arithmetic unit's results as numbers (42_arithmetic.md R150), and as the bit
vector operations Lean's library knows. -/

namespace Sys2Proof.Machine

variable (a b : Byte)

theorem add8_toNat : (add8 a b).toNat = (a.toNat + b.toNat) % 256 := by
  simp [add8]

theorem mul8_toNat : (mul8 a b).toNat = (a.toNat * b.toNat) % 256 := by
  simp [mul8]

theorem sub8_toNat : (sub8 a b).toNat = (256 + a.toNat - b.toNat) % 256 := by
  have ha := a.isLt
  have hb := b.isLt
  simp only [sub8, BitVec.toNat_ofInt]
  omega

theorem add8_eq : add8 a b = a + b := by
  apply BitVec.eq_of_toNat_eq
  simp [add8]

theorem sub8_eq : sub8 a b = a - b := by
  apply BitVec.eq_of_toNat_eq
  rw [sub8_toNat, BitVec.toNat_sub]
  have hb := b.isLt
  congr 1
  omega

theorem mul8_eq : mul8 a b = a * b := by
  apply BitVec.eq_of_toNat_eq
  simp [mul8]

theorem divU_none_iff : divU a b = none ↔ b = 0 := by
  unfold divU
  split
  · next h => exact ⟨fun _ => BitVec.eq_of_toNat_eq h, fun _ => rfl⟩
  · next h => exact ⟨fun e => by simp at e, fun e => absurd (by rw [e]; rfl) h⟩

theorem divU_some_toNat {q : Byte} (h : divU a b = some q) : q.toNat = a.toNat / b.toNat := by
  unfold divU at h
  split at h
  · simp at h
  · simp only [Option.some.injEq] at h
    rw [← h]
    exact Nat.mod_eq_of_lt (Nat.lt_of_le_of_lt (Nat.div_le_self _ _) a.isLt)

theorem divU_of_ne_zero (h : b ≠ 0) : ∃ q, divU a b = some q ∧ q.toNat = a.toNat / b.toNat := by
  cases hq : divU a b with
  | none => exact absurd ((divU_none_iff a b).mp hq) h
  | some q => exact ⟨q, rfl, divU_some_toNat a b hq⟩

theorem State.advance_pc_toNat (s : State) (n : Nat) :
    (s.advance n).pc.toNat = (s.pc.toNat + n) % 256 := by
  simp [State.advance, add8_toNat, Nat.add_mod]

end Sys2Proof.Machine
end

