-- ==== Sys2Proof/Laws/Decode.lean ====
section
/-! SUPPORT. Small lemmas of the decoder and the encoder. -/

namespace Sys2Proof

@[simp] theorem classify_byte (b : Byte) : (classify b).byte = b := by
  unfold classify
  split
  · simp [Operand.byte]
  · rfl

@[simp] theorem classify_wellFormed (b : Byte) : (classify b).wellFormed = true := by
  unfold classify
  split
  · rfl
  · simp only [Operand.wellFormed, decide_eq_true_eq]; omega

theorem classify_of_byte (o : Operand) (h : o.wellFormed = true) : classify o.byte = o := by
  cases o with
  | register i =>
    have hi : i.val % 256 = i.val := Nat.mod_eq_of_lt (by omega)
    have : i.val < 8 := i.isLt
    simp [classify, Operand.byte, hi]
  | raw b =>
    simp only [Operand.wellFormed, decide_eq_true_eq] at h
    simp [classify, Operand.byte, Nat.not_lt.mpr h]

/-- The decoder's table gives each identity's own opcode byte that identity. -/
@[simp] theorem identity_opcode (id : Identity) : identity id.opcode = (id, false) := by
  cases id <;> rfl

/-- The diagnostic is exactly membership among the eleven listed bytes. -/
theorem identity_undefined (op : Byte) : (identity op).2 = !definedOpcodes.contains op := by
  revert op
  decide

/-- An undefined opcode byte is Nop, and a defined one is its identity's opcode. -/
theorem identity_cases (op : Byte) : identity op = (.nop, true) ∨
    ∃ id : Identity, op = id.opcode := by
  have h : ∀ op : Byte, identity op = (.nop, true) ∨ op = (identity op).1.opcode := by decide
  exact (h op).imp_right fun e => ⟨_, e⟩

/-- What the decoder makes has the identity of its opcode byte, so it is never a video row. -/
theorem decodeWith_identity (op : Byte) (operand : Position → Byte) :
    (decodeWith op operand).identity = some (identity op).1 := by
  rcases identity_cases op with e | ⟨id, rfl⟩
  · simp [decodeWith, e, Instr.identity]
  · cases id <;> simp [decodeWith, Instr.identity]

theorem Identity.count_le_two (id : Identity) : id.count ≤ 2 := by
  cases id <;> decide

/-- Three bytes always hold an instruction. -/
theorem decode_three (op b1 b2 : Byte) : decode [op, b1, b2] =
    .ok (decodeWith op (fun p => [b1, b2].getD (p.offset - 1) 0),
      [b1, b2].drop (identity op).1.count) := by
  have h := Identity.count_le_two (identity op).1
  simp only [decode, List.length_cons, List.length_nil]
  rw [if_neg (by omega)]

end Sys2Proof
end

