-- ==== Sys2Proof/Laws/Memory.lean ====
section
/-! SUPPORT. The laws of general memory: a read after a write, and that every operation keeps the
canonical form. The read laws hold of every list, canonical or not. -/

namespace Sys2Proof.Machine

variable (m : Memory) (a b lo : Nat) (v : Byte)

theorem Memory.lookup_erase_same : Memory.lookup (Memory.erase a m) a = Memory.unlisted := by
  induction m with
  | nil => rfl
  | cons c m ih =>
    obtain ⟨k, w⟩ := c
    by_cases h : k = a <;> simp [Memory.erase, Memory.lookup, h, ih]

theorem Memory.lookup_erase_other (h : b ≠ a) :
    Memory.lookup (Memory.erase a m) b = Memory.lookup m b := by
  induction m with
  | nil => rfl
  | cons c m ih =>
    obtain ⟨k, w⟩ := c
    by_cases hk : k = a
    · subst hk; simp [Memory.erase, Memory.lookup, h.symm, ih]
    · simp [Memory.erase, Memory.lookup, hk, ih]

theorem Memory.lookup_insert_same (h : Memory.lookup m a = Memory.unlisted → a ∉ m.map Prod.fst)
    (hu : Memory.lookup m a = Memory.unlisted) : Memory.lookup (Memory.insert a v m) a = v := by
  have hn := h hu
  clear h hu
  induction m with
  | nil => simp [Memory.insert, Memory.lookup]
  | cons c m ih =>
    obtain ⟨k, w⟩ := c
    simp only [List.map_cons, List.mem_cons, not_or] at hn
    by_cases hlt : a < k
    · simp [Memory.insert, Memory.lookup, hlt]
    · simp [Memory.insert, Memory.lookup, hlt, Ne.symm hn.1, ih hn.2]

theorem Memory.lookup_insert_other (h : b ≠ a) :
    Memory.lookup (Memory.insert a v m) b = Memory.lookup m b := by
  induction m with
  | nil => simp [Memory.insert, Memory.lookup, h.symm]
  | cons c m ih =>
    obtain ⟨k, w⟩ := c
    by_cases hlt : a < k
    · simp [Memory.insert, Memory.lookup, hlt, h.symm]
    · simp [Memory.insert, Memory.lookup, hlt, ih]

theorem Memory.not_mem_erase : a ∉ (Memory.erase a m).map Prod.fst := by
  induction m with
  | nil => simp [Memory.erase]
  | cons c m ih =>
    obtain ⟨k, w⟩ := c
    by_cases hk : k = a
    · simpa [Memory.erase, hk] using ih
    · simp only [Memory.erase, hk, if_false, List.map_cons, List.mem_cons, not_or]
      exact ⟨Ne.symm hk, ih⟩

@[simp] theorem Memory.lookup_put_same : Memory.lookup (Memory.put m a v) a = v := by
  unfold Memory.put
  split
  · next h => rw [h, Memory.lookup_erase_same]
  · exact Memory.lookup_insert_same _ _ _ (fun _ => Memory.not_mem_erase m a)
      (Memory.lookup_erase_same m a)

theorem Memory.lookup_put_other (h : b ≠ a) :
    Memory.lookup (Memory.put m a v) b = Memory.lookup m b := by
  unfold Memory.put
  split
  · exact Memory.lookup_erase_other m a b h
  · rw [Memory.lookup_insert_other _ a b v h, Memory.lookup_erase_other m a b h]

/-! ### The canonical form -/

theorem Memory.wfFrom_mono {lo' : Nat} (h : lo' ≤ lo) (hw : Memory.wfFrom lo m = true) :
    Memory.wfFrom lo' m = true := by
  cases m with
  | nil => rfl
  | cons c m =>
    obtain ⟨k, w⟩ := c
    simp only [Memory.wfFrom, Bool.and_eq_true, decide_eq_true_eq] at hw ⊢
    exact ⟨⟨⟨by omega, hw.1.1.2⟩, hw.1.2⟩, hw.2⟩

theorem Memory.wfFrom_erase (hw : Memory.wfFrom lo m = true) :
    Memory.wfFrom lo (Memory.erase a m) = true := by
  induction m generalizing lo with
  | nil => rfl
  | cons c m ih =>
    obtain ⟨k, w⟩ := c
    simp only [Memory.wfFrom, Bool.and_eq_true, decide_eq_true_eq] at hw
    by_cases hk : k = a
    · simpa [Memory.erase, hk] using
        Memory.wfFrom_mono _ (k + 1) (by omega) (ih (k + 1) hw.2)
    · simp only [Memory.erase, hk, if_false, Memory.wfFrom, Bool.and_eq_true, decide_eq_true_eq]
      exact ⟨hw.1, ih (k + 1) hw.2⟩

theorem Memory.wfFrom_insert (hw : Memory.wfFrom lo m = true) (hlo : lo ≤ a) (ha : a < 256)
    (hv : v ≠ Memory.unlisted) (hn : a ∉ m.map Prod.fst) :
    Memory.wfFrom lo (Memory.insert a v m) = true := by
  induction m generalizing lo with
  | nil => simp [Memory.insert, Memory.wfFrom, hlo, ha, hv]
  | cons c m ih =>
    obtain ⟨k, w⟩ := c
    simp only [List.map_cons, List.mem_cons, not_or] at hn
    simp only [Memory.wfFrom, Bool.and_eq_true, decide_eq_true_eq] at hw
    by_cases hlt : a < k
    · simp only [Memory.insert, hlt, if_true, Memory.wfFrom, Bool.and_eq_true,
        decide_eq_true_eq]
      exact ⟨⟨⟨hlo, ha⟩, hv⟩, ⟨⟨hlt, hw.1.1.2⟩, hw.1.2⟩, hw.2⟩
    · simp only [Memory.insert, hlt, if_false, Memory.wfFrom, Bool.and_eq_true,
        decide_eq_true_eq]
      exact ⟨hw.1, ih (k + 1) hw.2 (by have := hn.1; omega) hn.2⟩

/-- Writing a cell keeps the canonical form. -/
theorem Memory.wf_put (hw : Memory.wf m = true) (ha : a < 256) :
    Memory.wf (Memory.put m a v) = true := by
  unfold Memory.put
  split
  · exact Memory.wfFrom_erase m a 0 hw
  · next hv =>
    exact Memory.wfFrom_insert _ a 0 v (Memory.wfFrom_erase m a 0 hw) (Nat.zero_le a) ha hv
      (Memory.not_mem_erase m a)

/-- Below its first possible address a canonical list lists nothing. -/
theorem Memory.wfFrom_lookup_low (hw : Memory.wfFrom lo m = true) (h : a < lo) :
    Memory.lookup m a = Memory.unlisted := by
  induction m generalizing lo with
  | nil => rfl
  | cons c m ih =>
    obtain ⟨k, w⟩ := c
    simp only [Memory.wfFrom, Bool.and_eq_true, decide_eq_true_eq] at hw
    have hk : k ≠ a := by omega
    simpa [Memory.lookup, hk] using ih (k + 1) hw.2 (by omega)

theorem Memory.reset_wf : Memory.wf State.reset.mem = true := rfl

theorem Memory.lookup_nil : Memory.lookup [] a = Memory.unlisted := rfl

/-! ### At the state -/

@[simp] theorem State.memRead_memWrite_same (s : State) (c w : Byte) :
    (s.memWrite c w).memRead c = w := Memory.lookup_put_same s.mem c.toNat w

theorem State.memRead_memWrite_other (s : State) {c d : Byte} (w : Byte) (h : d ≠ c) :
    (s.memWrite c w).memRead d = s.memRead d :=
  Memory.lookup_put_other s.mem c.toNat d.toNat w fun e => h (BitVec.eq_of_toNat_eq e)

theorem State.memWrite_wf (s : State) (c w : Byte) (h : Memory.wf s.mem = true) :
    Memory.wf (s.memWrite c w).mem = true := Memory.wf_put s.mem c.toNat w h c.isLt

end Sys2Proof.Machine
end

