-- ==== Sys2Proof/Laws/Operands.lean ====
section
/-! SUPPORT. What resolving an operand can answer, said once for every later proof. -/

namespace Sys2Proof.Machine

variable {α : Type}

@[simp] theorem resolve_ok (a : α) (k : α → Answer) : resolve (.ok a) k = k a := rfl

@[simp] theorem resolve_error (f : Fault) (k : α → Answer) :
    resolve (.error f) k = .fault f := rfl

theorem resolve_next {r : Except Fault α} {k : α → Answer} {t : State}
    (h : resolve r k = .next t) : ∃ a, r = .ok a ∧ k a = .next t := by
  cases r with
  | ok a => exact ⟨a, rfl, h⟩
  | error f => simp at h

theorem resolve_fault {r : Except Fault α} {k : α → Answer} {f : Fault}
    (h : resolve r k = .fault f) : r = .error f ∨ ∃ a, r = .ok a ∧ k a = .fault f := by
  cases r with
  | ok a => exact .inr ⟨a, rfl, h⟩
  | error g => simp only [resolve_error, Host.Outcome.fault.injEq] at h; exact .inl (by rw [h])

theorem resolve_refused {r : Except Fault α} {k : α → Answer} {e : Refusal}
    (h : resolve r k = .refused e) : ∃ a, r = .ok a ∧ k a = .refused e := by
  cases r with
  | ok a => exact ⟨a, rfl, h⟩
  | error f => simp at h

theorem regOf_ok {p : Position} {o : Operand} {d : RegIdx} (h : regOf p o = .ok d) :
    o = .register d := by
  cases o <;> simp_all [regOf]

theorem addrOf_ok {p : Position} {o : Operand} {a : Byte} (h : addrOf p o = .ok a) :
    o = .raw a := by
  cases o <;> simp_all [addrOf]

/-- Everything Add, Sub, Mul and Mov can do: the destination is a register and one register and pc
change, or operand1 is no register and the step raises. -/
theorem regNum_cases (f : Byte → Byte → Byte) (dst operand : Operand) (s : State) :
    (∃ d, dst = .register d ∧ regNum f dst operand s =
      .next ((s.writeReg d (f (s.readReg d) (numOf s operand))).advance 3)) ∨
    (∃ b, dst = .raw b ∧ regNum f dst operand s = .fault (.invalidRegister .operand1 b)) := by
  cases dst with
  | register d => exact .inl ⟨d, rfl, rfl⟩
  | raw b => exact .inr ⟨b, rfl, rfl⟩

theorem regNum_next {f : Byte → Byte → Byte} {dst operand : Operand} {s t : State}
    (h : regNum f dst operand s = .next t) : ∃ d, dst = .register d ∧
      t = (s.writeReg d (f (s.readReg d) (numOf s operand))).advance 3 := by
  rcases regNum_cases f dst operand s with ⟨d, hd, he⟩ | ⟨b, _, he⟩
  · rw [he] at h; exact ⟨d, hd, by simpa using h.symm⟩
  · rw [he] at h; simp at h

end Sys2Proof.Machine
end

