-- ==== Sys2Proof/Laws/Step.lean ====
section
/-! SUPPORT. What a step and the execute stage can do, said once: later proofs cite these and never
unfold exec. -/

namespace Sys2Proof.Machine

theorem step_halted {s : State} (h : s.run = .halted) : step s = .next s := by
  simp [step, h]

theorem step_running {s : State} (h : s.run = .running) : step s = exec s.fetch s := by
  simp [step, h]

/-- The next states the execute stage can answer: one register and pc, one memory cell and pc, pc
alone, or the run state alone. -/
inductive NextShape (i : Instr) (s t : State) : Prop where
  | register (d : RegIdx) (v : Byte) (id : Identity) (hd : destRegs i = [d])
      (hw : dataWrites i = []) (hid : i.identity = some id) (hj : id ≠ .jmp) (hh : id ≠ .hlt)
      (ht : t = (s.writeReg d v).advance id.len)
  | memory (a : Byte) (r : RegIdx) (hi : i = .store (.raw a) (.register r))
      (ht : t = (s.memWrite a (s.readReg r)).advance 3)
  | jump (a : Byte) (hi : i = .jmp (.raw a)) (ht : t = s.setPc a)
  | nothing (hi : i = .nop ∨ ∃ op, i = .nopUndefined op) (ht : t = s.advance 1)
  | stop (hi : i = .hlt) (ht : t = s.halt)

theorem NextShape.of_regNum {f : Byte → Byte → Byte} {dst operand : Operand} {s t : State}
    {i : Instr} {id : Identity} (h : regNum f dst operand s = .next t)
    (hd : ∀ d, dst = .register d → destRegs i = [d]) (hw : dataWrites i = [])
    (hid : i.identity = some id) (hj : id ≠ .jmp) (hh : id ≠ .hlt) (hl : id.len = 3) :
    NextShape i s t := by
  obtain ⟨d, rfl, ht⟩ := regNum_next h
  exact .register d _ id (hd d rfl) hw hid hj hh (by rw [hl]; exact ht)

/-- If exec answers a next state, it is one of these. -/
theorem exec_next {i : Instr} {s t : State} (h : exec i s = .next t) : NextShape i s t := by
  cases i with
  | load dst src =>
    obtain ⟨d, hd, h1⟩ := resolve_next h
    obtain ⟨a, ha, h2⟩ := resolve_next h1
    cases regOf_ok hd
    cases addrOf_ok ha
    exact .register d _ .load rfl rfl rfl (by decide) (by decide) (Host.Outcome.next.inj h2).symm
  | store dst src =>
    obtain ⟨a, ha, h1⟩ := resolve_next h
    obtain ⟨r, hr, h2⟩ := resolve_next h1
    cases regOf_ok hr
    cases addrOf_ok ha
    exact .memory a r rfl (Host.Outcome.next.inj h2).symm
  | add dst operand =>
    exact .of_regNum (f := add8) (id := .add) (dst := dst) (operand := operand) h
      (fun d e => by rw [e]; rfl) rfl rfl (by decide) (by decide) rfl
  | sub dst operand =>
    exact .of_regNum (f := sub8) (id := .sub) (dst := dst) (operand := operand) h
      (fun d e => by rw [e]; rfl) rfl rfl (by decide) (by decide) rfl
  | mul dst operand =>
    exact .of_regNum (f := mul8) (id := .mul) (dst := dst) (operand := operand) h
      (fun d e => by rw [e]; rfl) rfl rfl (by decide) (by decide) rfl
  | mov dst operand =>
    exact .of_regNum (f := fun _ v => v) (id := .mov) (dst := dst) (operand := operand) h
      (fun d e => by rw [e]; rfl) rfl rfl (by decide) (by decide) rfl
  | inc dst =>
    obtain ⟨d, hd, h1⟩ := resolve_next h
    cases regOf_ok hd
    exact .register d _ .inc rfl rfl rfl (by decide) (by decide) (Host.Outcome.next.inj h1).symm
  | div dst operand =>
    obtain ⟨d, hd, h1⟩ := resolve_next h
    cases regOf_ok hd
    cases hq : divU (s.readReg d) (numOf s operand) with
    | none => rw [hq] at h1; cases h1
    | some q =>
      rw [hq] at h1
      exact .register d q .div rfl rfl rfl (by decide) (by decide) (Host.Outcome.next.inj h1).symm
  | jmp target =>
    obtain ⟨a, ha, h1⟩ := resolve_next h
    cases addrOf_ok ha
    exact .jump a rfl (Host.Outcome.next.inj h1).symm
  | nop => exact .nothing (.inl rfl) (Host.Outcome.next.inj h).symm
  | nopUndefined op => exact .nothing (.inr ⟨op, rfl⟩) (Host.Outcome.next.inj h).symm
  | hlt => exact .stop rfl (Host.Outcome.next.inj h).symm
  | fill operands => cases h
  | clear operands => cases h

/-- Only the video rows are refused. -/
theorem exec_refused {i : Instr} {s : State} {e : Refusal} (h : exec i s = .refused e) :
    i.identity = none := by
  cases i with
  | load dst src =>
    obtain ⟨_, _, h1⟩ := resolve_refused h
    obtain ⟨_, _, h2⟩ := resolve_refused h1
    cases h2
  | store dst src =>
    obtain ⟨_, _, h1⟩ := resolve_refused h
    obtain ⟨_, _, h2⟩ := resolve_refused h1
    cases h2
  | add dst operand => obtain ⟨_, _, h1⟩ := resolve_refused h; cases h1
  | sub dst operand => obtain ⟨_, _, h1⟩ := resolve_refused h; cases h1
  | mul dst operand => obtain ⟨_, _, h1⟩ := resolve_refused h; cases h1
  | mov dst operand => obtain ⟨_, _, h1⟩ := resolve_refused h; cases h1
  | inc dst => obtain ⟨_, _, h1⟩ := resolve_refused h; cases h1
  | div dst operand =>
    obtain ⟨d, _, h1⟩ := resolve_refused h
    cases hq : divU (s.readReg d) (numOf s operand) with
    | none => rw [hq] at h1; cases h1
    | some q => rw [hq] at h1; cases h1
  | jmp target => obtain ⟨_, _, h1⟩ := resolve_refused h; cases h1
  | nop => cases h
  | nopUndefined op => cases h
  | hlt => cases h
  | fill operands => rfl
  | clear operands => rfl

/-! ### Runs of the machine -/

theorem run_succ (M : Host.Core) (k : Nat) (s : M.State) : M.run (k + 1) s =
    (match M.step s with
      | .next t => M.run k t
      | .fault f => .fault f
      | .refused r => .refused r) := rfl

/-- A run of k + 1 steps that answers a next state is a step and a run of k. -/
theorem core_run_succ {k : Nat} {s u : State} (h : Host.Core.run core (k + 1) s = .next u) :
    ∃ t, step s = .next t ∧ Host.Core.run core k t = .next u := by
  have h1 := (run_succ core k s).symm.trans h
  cases hs : core.step s with
  | next t => rw [hs] at h1; exact ⟨t, hs, h1⟩
  | fault f => rw [hs] at h1; cases h1
  | refused r => rw [hs] at h1; cases h1

/-- What holds of a state and is kept by every step holds after any run. -/
theorem run_keeps {P : State → Prop} (hP : ∀ s t, P s → step s = .next t → P t) {k : Nat}
    {s u : State} (hs : P s) (h : Host.Core.run core k s = .next u) : P u := by
  induction k generalizing s with
  | zero => cases h; exact hs
  | succ k ih =>
    obtain ⟨t, ht, h⟩ := core_run_succ h
    exact ih (hP s t hs ht) h

end Sys2Proof.Machine
end

