-- ==== Sys2Proof/Laws/HostPort.lean ====
section
/-! SUPPORT. Writing a run of bytes: what it leaves in memory, and that it keeps the canonical
form. What hostRun answers, case by case. -/

namespace Sys2Proof.Machine

theorem Memory.lookup_putList (bs : List Byte) (m : Memory) (a b : Nat) :
    Memory.lookup (Memory.putList m a bs) b =
      if a ≤ b ∧ b < a + bs.length then bs.getD (b - a) 0 else Memory.lookup m b := by
  induction bs generalizing m a with
  | nil => rw [if_neg (by simp)]; rfl
  | cons x bs ih =>
    rw [Memory.putList, ih]
    by_cases h : b = a
    · subst h; simp
    · rw [Memory.lookup_put_other _ _ _ _ h]
      by_cases hin : a ≤ b ∧ b < a + (bs.length + 1)
      · obtain ⟨k, rfl⟩ : ∃ k, b = a + 1 + k := ⟨b - (a + 1), by omega⟩
        have e1 : a + 1 + k - (a + 1) = k := by omega
        have e2 : a + 1 + k - a = k + 1 := by omega
        rw [if_pos (by omega), if_pos (by simpa using hin), e1, e2]
        simp
      · rw [if_neg (by omega), if_neg (by simpa using hin)]

theorem Memory.wf_putList (bs : List Byte) (m : Memory) (a : Nat) (h : Memory.wf m = true)
    (hl : a + bs.length ≤ 256) : Memory.wf (Memory.putList m a bs) = true := by
  induction bs generalizing m a with
  | nil => exact h
  | cons x bs ih =>
    rw [List.length_cons] at hl
    exact ih _ _ (Memory.wf_put m a x h (by omega)) (by omega)

theorem State.placeBytes_wf (bs : List Byte) (s : State) (k : Nat) (h : Memory.wf s.mem = true) :
    Memory.wf (s.placeBytes k bs).mem = true := by
  induction bs generalizing s k with
  | nil => exact h
  | cons b bs ih => exact ih _ _ (State.memWrite_wf s _ b h)

/-! ### load_program, by the image's length -/

theorem loadProgram_fits (s : State) (bytes : List Byte) (h : bytes.length ≤ Config.memSize) :
    loadProgram (.readable bytes) s =
      .ok ({ s with mem := Memory.ofImage bytes }, .loaded bytes.length) := by
  simp only [loadProgram]
  rw [if_pos h]

theorem loadProgram_too_long (s : State) (bytes : List Byte) (h : ¬ bytes.length ≤ Config.memSize) :
    loadProgram (.readable bytes) s = .error (.imageTooLong bytes.length) := by
  simp only [loadProgram]
  rw [if_neg h]

/-! ### hostRun, by the state and the outcome of its step -/

theorem hostRun_final {s : State} (h : s.Final) (n : Nat) : hostRun n s = .ok (.halted s) := by
  cases n <;> simp [hostRun, h]

theorem hostRun_zero {s : State} (h : ¬ s.Final) : hostRun 0 s = .ok (.stopped s) := by
  simp [hostRun, h]

theorem hostRun_next {s t : State} (h : ¬ s.Final) (hs : step s = .next t) (k : Nat) :
    hostRun (k + 1) s = hostRun k t := by
  simp only [hostRun, if_neg h, hs]

theorem hostRun_fault {s : State} {f : Fault} (h : ¬ s.Final) (hs : step s = .fault f) (k : Nat) :
    hostRun (k + 1) s = .ok (.failed s f) := by
  simp only [hostRun, if_neg h, hs]

theorem hostRun_refused {s : State} {r : Refusal} (h : ¬ s.Final) (hs : step s = .refused r)
    (k : Nat) : hostRun (k + 1) s = .error r := by
  simp only [hostRun, if_neg h, hs]

end Sys2Proof.Machine
end

