-- ==== Sys2Proof/Laws/PerInstr.lean ====
section
/-! SUPPORT. Per-instruction families. EncodedLength: an instruction's encoding has as many bytes as
the operand table gives its identity (30_encoding.md R80, R84), and an instruction without an
identity has no encoding in the instruction stream (44_video.md R181). -/

namespace Sys2Proof.Laws.EncodedLength

/-- The bytes of i are as many as its identity's length says. -/
def Statement (i : Instr) : Prop := (encode i).map List.length = i.identity.map Identity.len

theorem load (dst src : Operand) : Statement (.load dst src) := rfl
theorem store (dst src : Operand) : Statement (.store dst src) := rfl
theorem add (dst operand : Operand) : Statement (.add dst operand) := rfl
theorem sub (dst operand : Operand) : Statement (.sub dst operand) := rfl
theorem jmp (target : Operand) : Statement (.jmp target) := rfl
theorem mov (dst operand : Operand) : Statement (.mov dst operand) := rfl
theorem inc (dst : Operand) : Statement (.inc dst) := rfl
theorem div (dst operand : Operand) : Statement (.div dst operand) := rfl
theorem mul (dst operand : Operand) : Statement (.mul dst operand) := rfl
theorem nop : Statement .nop := rfl
theorem hlt : Statement .hlt := rfl
theorem nopUndefined (op : Byte) : Statement (.nopUndefined op) := rfl
theorem fill (operands : List Byte) : Statement (.fill operands) := rfl
theorem clear (operands : List Byte) : Statement (.clear operands) := rfl

end Sys2Proof.Laws.EncodedLength
end

