-- ==== Sys2Proof/Tests/Slice0.lean ====
section
/-! SUPPORT. Tests of the model's own work. Expected results are the vectors of
spec/95_test_vectors.md, named by their ids; encodings are written out from 30_encoding.md R82 and
R86. The witnesses at the end meet the hypotheses of the statements. -/

namespace Sys2Proof.Machine.Tests

/-- A Running state with given registers, pc and memory. -/
def probe (regs : Regs) (pc : Byte) (mem : Memory) : State :=
  { State.reset with regs := regs, pc := pc, mem := mem }

/-- The bytes of an instruction at pc, on top of some memory. -/
def probeAt (regs : Regs) (pc : Byte) (mem : Memory) (bytes : List Byte) : State :=
  (probe regs pc mem).placeBytes 0 bytes

/-- What a vector says of a completed step: registers, pc, run state. -/
def after (s : State) : Option (Regs × Byte × Run) :=
  (nextOf (step s)).map fun t => (t.regs, t.pc, t.run)

/-- The byte at an address after a completed step. -/
def byteAfter (s : State) (a : Byte) : Option Byte := (nextOf (step s)).map fun t => t.memRead a

/-! ### WellFormed refuses what no bytes stand for -/

theorem test_wf_raw_below_eight :
    Operand.wellFormed (.raw 7) = false ∧ Operand.wellFormed (.raw 8) = true := by decide
theorem test_wf_load : (Instr.load (.raw 7) (.raw 8)).wellFormed = false ∧
    (Instr.load (.register 0) (.raw 7)).wellFormed = false := by decide
theorem test_wf_store : (Instr.store (.raw 7) (.register 0)).wellFormed = false ∧
    (Instr.store (.raw 8) (.raw 7)).wellFormed = false := by decide
theorem test_wf_add : (Instr.add (.raw 0) (.raw 8)).wellFormed = false ∧
    (Instr.add (.register 0) (.raw 0)).wellFormed = false := by decide
theorem test_wf_sub : (Instr.sub (.raw 1) (.raw 8)).wellFormed = false ∧
    (Instr.sub (.register 0) (.raw 1)).wellFormed = false := by decide
theorem test_wf_mul : (Instr.mul (.raw 2) (.raw 8)).wellFormed = false ∧
    (Instr.mul (.register 0) (.raw 2)).wellFormed = false := by decide
theorem test_wf_div : (Instr.div (.raw 3) (.raw 8)).wellFormed = false ∧
    (Instr.div (.register 0) (.raw 3)).wellFormed = false := by decide
theorem test_wf_mov : (Instr.mov (.raw 4) (.raw 8)).wellFormed = false ∧
    (Instr.mov (.register 0) (.raw 4)).wellFormed = false := by decide
theorem test_wf_inc_jmp : (Instr.inc (.raw 5)).wellFormed = false ∧
    (Instr.jmp (.raw 6)).wellFormed = false := by decide
theorem test_wf_nopUndefined : (Instr.nopUndefined 0x90).wellFormed = false ∧
    (Instr.nopUndefined 0x09).wellFormed = false ∧
    (Instr.nopUndefined 0x0A).wellFormed = true := by decide
theorem test_wf_video : (Instr.fill [1, 2, 3]).wellFormed = false ∧
    (Instr.clear [1, 2, 3]).wellFormed = false ∧ (Instr.fill [1, 2]).wellFormed = true := by decide

/-! ### Decoding of words written out from the encoding -/

theorem test_decode_load :
    decode [0b00000001, 0b00000010, 0b00100000] = .ok (.load (.register 2) (.raw 32), []) := by
  decide
theorem test_decode_store :
    decode [0b00000010, 0b11111111, 0b00000111] = .ok (.store (.raw 255) (.register 7), []) := by
  decide
theorem test_decode_add :
    decode [0b00000011, 0b00000000, 0b00000001] = .ok (.add (.register 0) (.register 1), []) := by
  decide
theorem test_decode_sub :
    decode [0b00000100, 0b00000000, 0b00010100] = .ok (.sub (.register 0) (.raw 20), []) := by
  decide
theorem test_decode_jmp :
    decode [0b00000101, 0b00001010, 0b11111111] = .ok (.jmp (.raw 10), [0xFF]) := by decide
theorem test_decode_mov :
    decode [0b00000110, 0b00000001, 0b00001000] = .ok (.mov (.register 1) (.raw 8), []) := by decide
theorem test_decode_inc :
    decode [0b00000111, 0b00000111, 0b00000111] = .ok (.inc (.register 7), [7]) := by decide
theorem test_decode_div :
    decode [0b00001000, 0b00000101, 0b00000101] = .ok (.div (.register 5) (.register 5), []) := by
  decide
theorem test_decode_mul :
    decode [0b00001001, 0b00001000, 0b00001000] = .ok (.mul (.raw 8) (.raw 8), []) := by decide
theorem test_decode_nop : decode [0b10010000, 1] = .ok (.nop, [1]) := by decide
theorem test_decode_hlt : decode [0b11111111, 1] = .ok (.hlt, [1]) := by decide
theorem test_decode_undefined : ∀ op ∈ ([0x00, 0x0A, 0x8F, 0x91, 0xFE] : List Byte),
    decode [op, 1, 2] = .ok (.nopUndefined op, [1, 2]) := by decide
theorem test_decode_too_short : decode [] = .error .noOpcode ∧
    decode [0x07] = .error (.missingOperand .inc) ∧
    decode [0x03, 0] = .error (.missingOperand .add) := by decide
theorem test_decodeTableWord : decodeTableWord 24 0x200201 = some (.load (.register 2) (.raw 32)) ∧
    decodeTableWord 8 0xFF = some .hlt := by decide
/-! ### One-step vectors -/

theorem test_T1_load : after (probeAt ⟨0, 0, 85, 0, 0, 0, 0, 0⟩ 0x10 [(0x20, 0xAB)] [1, 2, 0x20]) =
    some (⟨0, 0, 171, 0, 0, 0, 0, 0⟩, 0x13, .running) := by decide
theorem test_T4_load_own_byte : after (probeAt State.reset.regs 0x10 [] [1, 0, 0x12]) =
    some (⟨18, 0, 0, 0, 0, 0, 0, 0⟩, 0x13, .running) := by decide
theorem test_T9_store :
    byteAfter (probeAt ⟨0, 107, 0, 0, 0, 0, 0, 0⟩ 0x13 [] [2, 0x20, 1]) 0x20 = some 0x6B := by
  decide
theorem test_T11_store_own_byte :
    (nextOf (step (probeAt ⟨51, 0, 0, 0, 0, 0, 0, 0⟩ 0x13 [] [2, 0x14, 0]))).map
      (fun t => (t.pc, t.mem)) = some (0x16, [(0x13, 2), (0x14, 0x33)]) := by decide
theorem test_T15_mov_immediate : after (probeAt State.reset.regs 0 [] [6, 0, 0x2A]) =
    some (⟨42, 0, 0, 0, 0, 0, 0, 0⟩, 3, .running) := by decide
theorem test_T16_mov_register : after (probeAt ⟨9, 0, 0, 0, 0, 77, 0, 0⟩ 0 [] [6, 0, 5]) =
    some (⟨77, 0, 0, 0, 0, 77, 0, 0⟩, 3, .running) := by decide
theorem test_A2_add_wraps : after (probeAt ⟨200, 0, 0, 0, 0, 0, 0, 0⟩ 6 [] [3, 0, 0x64]) =
    some (⟨44, 0, 0, 0, 0, 0, 0, 0⟩, 9, .running) := by decide
theorem test_A3_add_same_register : after (probeAt ⟨0, 0, 0, 0, 144, 0, 0, 0⟩ 6 [] [3, 4, 4]) =
    some (⟨0, 0, 0, 0, 32, 0, 0, 0⟩, 9, .running) := by decide
theorem test_A8_sub_underflow : after (probeAt ⟨8, 0, 0, 0, 0, 0, 0, 0⟩ 0x0C [] [4, 0, 0x14]) =
    some (⟨244, 0, 0, 0, 0, 0, 0, 0⟩, 0x0F, .running) := by decide
theorem test_A12_sub_borrow : after (probeAt ⟨5, 6, 0, 0, 0, 0, 0, 0⟩ 0x0C [] [4, 0, 1]) =
    some (⟨255, 6, 0, 0, 0, 0, 0, 0⟩, 0x0F, .running) := by decide
theorem test_A16_mul_largest : after (probeAt ⟨255, 0, 0, 0, 0, 0, 0, 0⟩ 9 [] [9, 0, 0xFF]) =
    some (⟨1, 0, 0, 0, 0, 0, 0, 0⟩, 0x0C, .running) := by decide
theorem test_A17_mul_same_register : after (probeAt ⟨0, 0, 0, 17, 0, 0, 0, 0⟩ 9 [] [9, 3, 3]) =
    some (⟨0, 0, 0, 33, 0, 0, 0, 0⟩, 0x0C, .running) := by decide
theorem test_A21_div : after (probeAt ⟨244, 10, 0, 0, 0, 0, 0, 0⟩ 0x0F [] [8, 0, 1]) =
    some (⟨24, 10, 0, 0, 0, 0, 0, 0⟩, 0x12, .running) := by decide
theorem test_A29_div_by_zero :
    faultOf (step (probeAt ⟨244, 0, 0, 0, 0, 0, 0, 0⟩ 0x0F [] [8, 0, 1])) = some .divideByZero := by
  decide
theorem test_A33_inc_wraps : after (probeAt ⟨255, 0, 0, 0, 0, 0, 0, 0⟩ 0x12 [] [7, 0]) =
    some (⟨0, 0, 0, 0, 0, 0, 0, 0⟩, 0x14, .running) := by decide
theorem test_W2_inc_across_the_top : after (probeAt ⟨0, 9, 0, 0, 0, 0, 0, 0⟩ 0xFF [] [7, 1]) =
    some (⟨0, 10, 0, 0, 0, 0, 0, 0⟩, 0x01, .running) := by decide
theorem test_C2_jmp : after (probeAt State.reset.regs 0xC8 [] [5, 0x0A]) =
    some (State.reset.regs, 0x0A, .running) := by decide
theorem test_C6_jmp_low :
    faultOf (step (probeAt State.reset.regs 0x20 [] [5, 7])) =
      some (.invalidAddress .operand1 7) := by decide
theorem test_C9_nop_at_the_top : after (probeAt State.reset.regs 0xFF [] [0x90]) =
    some (State.reset.regs, 0x00, .running) := by decide
theorem test_C11_undefined : (hostStep (probeAt State.reset.regs 7 [] [0x0A, 1, 2])).map
    (fun r => (r.1.pc, r.2)) = .ok (8, ⟨.ok, true, .running⟩) := by decide
theorem test_C15_hlt : after (probeAt ⟨25, 0, 0, 0, 0, 0, 0, 0⟩ 0x14 [] [0xFF]) =
    some (⟨25, 0, 0, 0, 0, 0, 0, 0⟩, 0x14, .halted) := by decide
theorem test_C16_halted_step :
    after (probeAt ⟨25, 0, 0, 0, 0, 0, 0, 0⟩ 0x14 [] [7, 0]).halt =
      some (⟨25, 0, 0, 0, 0, 0, 0, 0⟩, 0x14, .halted) := by decide
theorem test_T8_T14_first_error_wins :
    faultOf (step (probeAt State.reset.regs 0x10 [] [1, 9, 3])) =
      some (.invalidRegister .operand1 9) ∧
    faultOf (step (probeAt State.reset.regs 0x13 [] [2, 3, 9])) =
      some (.invalidAddress .operand1 3) := by decide
theorem test_withFetchWord : (nextOf (step (State.reset.withFetchWord 24 0x2A0006))).map
    (fun t => (t.regs.r0, t.pc)) = some (42, 3) ∧
    faultOf (step (State.reset.withFetchWord 8 0x01)) = some (.invalidAddress .operand2 0) := by
  decide

/-! ### Host operations -/

/-- 256 bytes always fit the backing store. -/
theorem fits (bytes : List Byte) (h : bytes.length ≤ 256) : bytes.length ≤ Config.memSize :=
  Nat.le_trans h (Nat.le_add_left 256 Config.headroom)

theorem test_H3_no_residue : ∃ t, loadProgram (.readable [7, 0]) (probe State.reset.regs 0
    [(0, 6), (2, 0x2A), (3, 0xFF)]) = .ok (t, .loaded 2) ∧ t.mem = [(0, 7)] :=
  ⟨_, loadProgram_fits _ [7, 0] (fits [7, 0] (by decide)), rfl⟩
theorem test_H7_load_into_halted : ∃ t, loadProgram (.readable [0x90, 0xFF])
    (probe State.reset.regs 0x14 []).halt = .ok (t, .loaded 2) ∧ t.run = .halted ∧ t.pc = 0x14 ∧
      t.mem = [(0, 0x90), (1, 0xFF)] :=
  ⟨_, loadProgram_fits _ [0x90, 0xFF] (fits _ (by decide)), rfl, rfl, rfl⟩
theorem test_H6_reset : hostReset (probe State.reset.regs 0x14 [(0, 7)]).halt = State.reset := rfl

/-! ### The end of a run (40_instruction_cycle.md R126) -/

/-- Vectors C15 and C16: Hlt ends the run in its final state, whatever steps the host allows. -/
theorem test_C15_C16_run_halted : hostRun 2 (probe State.reset.regs 0x14 [(0x14, 0xFF)]) =
    .ok (.halted (probe State.reset.regs 0x14 [(0x14, 0xFF)]).halt) := by decide
/-- Vector A29: the run ends in the error, at the failing instruction. -/
theorem test_A29_run_failed : hostRun 2 (probe State.reset.regs 0x0F [(0x0F, 8), (0x11, 1)]) =
    .ok (.failed (probe State.reset.regs 0x0F [(0x0F, 8), (0x11, 1)]) .divideByZero) := by decide
/-- Vector C8: the host stops after one Nop. -/
theorem test_C8_run_stopped : hostRun 1 (probe State.reset.regs 5 [(5, 0x90)]) =
    .ok (.stopped (probe State.reset.regs 6 [(5, 0x90)])) := by decide

/-! ### Witnesses: concrete cases that meet the hypotheses of the statements -/

/-- ConstructionZeroesEverythingAndStartsRunning: a step that completes. -/
theorem witness_construction_step : nextOf (step State.reset) = some (State.reset.advance 1) := rfl
/-- ResetIsConstructionFromAnyState, HaltedStepDoesNothing: a Halted state and a run from it. -/
theorem witness_halted_run : State.reset.halt.run = .halted ∧
    nextOf (Host.Core.run core 2 State.reset.halt) = some State.reset.halt := ⟨rfl, rfl⟩
/-- EveryStepKeepsTheInvariants: a state with the invariants whose step completes. -/
theorem witness_invariants : State.reset.Inv ∧ nextOf (step State.reset) ≠ none :=
  ⟨⟨rfl, rfl, rfl, rfl, fun _ => rfl⟩, by simp [witness_construction_step]⟩
/-- CanonicalMemoriesThatReadAlikeAreEqual: addresses at both ends. -/
theorem witness_canonical : Memory.wf [(0, 1), (255, 2)] = true ∧
    ∀ a < 256, Memory.lookup [(0, 1), (255, 2)] a = Memory.lookup [(0, 1), (255, 2)] a :=
  ⟨by decide, fun _ _ => rfl⟩
/-- DecodeUndoesEncode: a two-operand instruction at its bounds, and an undefined opcode. -/
theorem witness_encode : (Instr.store (.raw 8) (.register 7)).wellFormed = true ∧
    (Instr.store (.raw 8) (.register 7)).identity = some .store ∧
    (Instr.nopUndefined 0).wellFormed = true ∧
    (Instr.nopUndefined 0).identity = some .nop := by decide
/-- EncodeUndoesDecode, VideoOpcodesAreNeverDecoded: bytes that decode. -/
theorem witness_decode : decode [0x06, 0x00, 0x2A, 9] = .ok (.mov (.register 0) (.raw 42), [9]) := by
  decide
/-- OpcodeByteSelectsIdentity: a byte outside the list. -/
theorem witness_undefined_byte :
    (0xFE : Byte) ∉ [0x01, 0x02, 0x03, 0x04, 0x05, 0x06, 0x07, 0x08, 0x09, 0x90, 0xFF] := by decide
/-- The bounds of every statement with an operand byte below 8, or of 8 and above:
OperandByteBelowEightIsRegister, RegisterOperandIsIndexOrError, AddressOperandIsByteOrError,
NumericOperandIsRegisterValueOrByte, LoadCopiesMemoryByteToRegister,
StoreCopiesRegisterToOneCell, JmpSetsPcToTarget, RawRegisterOperandRaisesInvalidRegister,
LowAddressOperandRaisesInvalidAddress, FirstOperandErrorIsReported. -/
theorem witness_operand_bounds : (7 : Byte).toNat ≤ 7 ∧ 8 ≤ (8 : Byte).toNat ∧
    8 ≤ (255 : Byte).toNat ∧ (0 : Byte).toNat ≤ 7 := by decide
/-- OpcodeByteAloneTellsLength: exactly enough operand bytes. -/
theorem witness_enough_operands : (identity 0x03).1.count ≤ ([8, 9] : List Byte).length := by decide
/-- FetchWrapsAtTheTopOfMemory: both clauses. -/
theorem witness_top_of_memory : (probe State.reset.regs 0xFE []).pc = 0xFE ∧
    (probe State.reset.regs 0xFF []).pc = 0xFF := ⟨rfl, rfl⟩
/-- RunningStepExecutesDecodedInstruction: Running, and bytes that decode. -/
theorem witness_running_decode : State.reset.run = .running ∧
    decode State.reset.fetchWindow = .ok (.nopUndefined 0, [0, 0]) := by decide
/-- OnlyHltStopsTheEngine: Hlt completes. -/
theorem witness_hlt_answers : nextOf (exec .hlt State.reset) = some State.reset.halt := rfl
/-- PcAdvancesByEncodedLength, OnlyTheDestinationRegisterChanges: Inc completes. -/
theorem witness_pc_advances : (Instr.inc (.register 0)).identity = some .inc ∧
    Identity.inc ≠ .jmp ∧ Identity.inc ≠ .hlt ∧
    (nextOf (exec (.inc (.register 0)) State.reset)).isSome = true := by decide
/-- OnlyStoreWritesMemoryAboveSeven: a well-formed Store completes at the lowest address. -/
theorem witness_store_answers :
    (nextOf (exec (.store (.raw 8) (.register 7)) State.reset)).isSome = true ∧
    dataWrites (.store (.raw 8) (.register 7)) = [8] ∧
    (Instr.store (.raw 8) (.register 7)).wellFormed = true := by decide
/-- StepDependsOnlyOnBytesItReads: another memory, and a step that completes. -/
theorem witness_reads_completing :
    (∀ a ∈ State.reset.stepReads, Memory.lookup [(200, 5)] a.toNat = State.reset.memRead a) ∧
    (nextOf (step State.reset)).isSome = true := by decide
/-- StepDependsOnlyOnBytesItReads: another memory, and a step that raises. -/
theorem witness_reads_failing :
    (∀ a ∈ (probe State.reset.regs 0 [(0, 7), (1, 8)]).stepReads,
      Memory.lookup [(0, 7), (1, 8), (2, 9)] a.toNat =
        (probe State.reset.regs 0 [(0, 7), (1, 8)]).memRead a) ∧
    faultOf (step (probe State.reset.regs 0 [(0, 7), (1, 8)])) =
      some (.invalidRegister .operand1 8) := by decide
/-- NumericOperandIsRegisterValueOrByte: the highest register. -/
theorem witness_numeric_register : (7 : Byte).toNat = (7 : RegIdx).val := by decide
/-- StoreIsSeenByNextFetch: a Store to the very next opcode byte. -/
theorem witness_store_then_fetch :
    (nextOf (exec (.store (.raw 0x16) (.register 1)) (probe ⟨0, 7, 0, 0, 0, 0, 0, 0⟩ 0x13 []))).map
      (fun t => (t.fetchAddr 0, t.fetchAddr 1)) = some (0x16, 0x17) := by decide
/-- DivWritesFloorQuotient (register and immediate), FirstOperandErrorIsReported (zero divisor). -/
theorem witness_divisors : numericValue (probe ⟨0, 1, 0, 0, 0, 0, 0, 0⟩ 0 []) 1 ≠ 0 ∧
    numericValue State.reset 8 ≠ 0 ∧ numericValue State.reset 1 = 0 := by decide
/-- UndefinedOpcodeByteExecutesAsNop: Running, and an undefined byte at pc. -/
theorem witness_undefined_step : State.reset.run = .running ∧
    State.reset.memRead State.reset.pc = 0 ∧ (0 : Byte) ∉ definedOpcodes := by decide
/-- DivideByZeroIsRaisedByDivAlone: both clauses. -/
theorem witness_zero_divisor : State.reset.readReg 3 = 0 ∧
    (Instr.div (.register 0) (.register 3)).wellFormed = true ∧
    faultOf (exec (.div (.register 0) (.register 3)) State.reset) = some .divideByZero := by decide
/-- FailedStepChangesNothing: a step that returns Err. -/
theorem witness_failed_step : (hostStep (probe State.reset.regs 0 [(0, 7), (1, 8)])).map
    (fun r => r.2.result) = .ok (.err (.invalidRegister .operand1 8)) := by decide
/-- FinalStatesAreReachedByHltAndLast: a step into a final state, one past it, a final state, and a
step that raises. -/
theorem witness_final :
    (¬ (probe State.reset.regs 0 [(0, 0xFF)]).Final ∧
      nextOf (step (probe State.reset.regs 0 [(0, 0xFF)])) =
        some (probe State.reset.regs 0 [(0, 0xFF)]).halt) ∧
    (¬ State.reset.Final ∧ nextOf (step State.reset) = some (State.reset.advance 1)) ∧
    State.reset.halt.Final ∧
    faultOf (step (probe State.reset.regs 0 [(0, 7), (1, 8)])) =
      some (.invalidRegister .operand1 8) := by decide
/-- StackPointerIsZeroAndUnused, FlagsAreZeroAndUnused: a run that completes. -/
theorem witness_run_from_reset :
    nextOf (Host.Core.run core 1 State.reset) = some (State.reset.advance 1) := rfl
/-- LoadProgramReplacesMemory: an image that fits. -/
theorem witness_image_fits : ([6, 0, 42, 255] : List Byte).length ≤ Config.memSize :=
  fits _ (by decide)
/-- LoadProgramWritesMemoryOnly: a load that succeeds. -/
theorem witness_image_loaded : ∃ t,
    loadProgram (.readable [6, 0, 42, 255]) State.reset = .ok (t, .loaded 4) :=
  ⟨_, loadProgram_fits _ _ witness_image_fits⟩
/-- LoadProgramWritesMemoryOnly: an image that does not fit. -/
theorem witness_image_too_long :
    Config.memSize < (List.replicate (Config.memSize + 1) (0 : Byte)).length := by simp

end Sys2Proof.Machine.Tests
end

/-! PROOFS. The reserved fields sp, flags and video memory (10_state.md R28, R29, R33): a rewrite of
them commutes with every instruction, and no run changes them. -/

namespace Sys2Proof.Machine

/-! ### Rewriting the next state of an answer -/

@[simp] theorem mapNext_next (f : State → State) (s : State) :
    mapNext f (.next s) = .next (f s) := rfl

@[simp] theorem mapNext_fault (f : State → State) (e : Fault) :
    mapNext f (.fault e) = .fault e := rfl

@[simp] theorem mapNext_refused (f : State → State) (r : Refusal) :
    mapNext f (.refused r) = .refused r := rfl

/-- A rewrite that commutes with what follows a resolved operand commutes with the whole. -/
theorem resolve_eq_mapNext {α : Type} {f : State → State} {k k' : α → Answer}
    (r : Except Fault α) (h : ∀ a, k' a = mapNext f (k a)) :
    resolve r k' = mapNext f (resolve r k) := by
  cases r with
  | ok a => exact h a
  | error e => rfl

/-! ### Rewrites the execute stage does not see -/

/-- The execute stage neither sees nor disturbs the rewrite f: every read gives the same value
before and after it, and every update commutes with it. -/
structure Unobserved (f : State → State) : Prop where
  readReg : ∀ s i, (f s).readReg i = s.readReg i
  memRead : ∀ s a, (f s).memRead a = s.memRead a
  pc : ∀ s, (f s).pc = s.pc
  writeReg : ∀ s i v, (f s).writeReg i v = f (s.writeReg i v)
  memWrite : ∀ s a v, (f s).memWrite a v = f (s.memWrite a v)
  setPc : ∀ s a, (f s).setPc a = f (s.setPc a)
  halt : ∀ s, (f s).halt = f s.halt

theorem unobserved_sp (v : Byte) : Unobserved fun s => { s with sp := v } := by
  constructor <;> intros <;> rfl

theorem unobserved_flags (v : Byte) : Unobserved fun s => { s with flags := v } := by
  constructor <;> intros <;> rfl

section
variable {f : State → State} (hf : Unobserved f) (s : State)
include hf

theorem Unobserved.advance (n : Nat) : (f s).advance n = f (s.advance n) := by
  rw [State.advance, hf.pc, hf.setPc, ← State.advance]

theorem Unobserved.writeReg_advance (d : RegIdx) (v : Byte) (n : Nat) :
    ((f s).writeReg d v).advance n = f ((s.writeReg d v).advance n) := by
  rw [hf.writeReg, hf.advance]

theorem Unobserved.numOf_eq (o : Operand) : numOf (f s) o = numOf s o := by
  cases o with
  | register i => exact hf.readReg s i
  | raw b => rfl

theorem Unobserved.regNum_eq (g : Byte → Byte → Byte) (dst operand : Operand) :
    regNum g dst operand (f s) = mapNext f (regNum g dst operand s) :=
  resolve_eq_mapNext _ fun d => by
    rw [hf.readReg, hf.numOf_eq, hf.writeReg_advance, mapNext_next]

theorem Unobserved.execLoad_eq (dst src : Operand) :
    execLoad dst src (f s) = mapNext f (execLoad dst src s) :=
  resolve_eq_mapNext _ fun d => resolve_eq_mapNext _ fun a => by
    rw [hf.memRead, hf.writeReg_advance, mapNext_next]

theorem Unobserved.execStore_eq (dst src : Operand) :
    execStore dst src (f s) = mapNext f (execStore dst src s) :=
  resolve_eq_mapNext _ fun a => resolve_eq_mapNext _ fun r => by
    rw [hf.readReg, hf.memWrite, hf.advance, mapNext_next]

theorem Unobserved.execInc_eq (dst : Operand) :
    execInc dst (f s) = mapNext f (execInc dst s) :=
  resolve_eq_mapNext _ fun d => by
    rw [hf.readReg, hf.writeReg_advance, mapNext_next]

theorem Unobserved.execDiv_eq (dst operand : Operand) :
    execDiv dst operand (f s) = mapNext f (execDiv dst operand s) :=
  resolve_eq_mapNext _ fun d => by
    rw [hf.readReg, hf.numOf_eq]
    cases divU (s.readReg d) (numOf s operand) with
    | none => rfl
    | some q => exact congrArg _ (hf.writeReg_advance s d q 3)

theorem Unobserved.execJmp_eq (target : Operand) :
    execJmp target (f s) = mapNext f (execJmp target s) :=
  resolve_eq_mapNext _ fun a => by rw [hf.setPc, mapNext_next]

/-- An unobserved rewrite can be made before or after any instruction. -/
theorem Unobserved.exec_eq (i : Instr) : exec i (f s) = mapNext f (exec i s) := by
  cases i with
  | load dst src => exact hf.execLoad_eq s dst src
  | store dst src => exact hf.execStore_eq s dst src
  | add dst operand => exact hf.regNum_eq s add8 dst operand
  | sub dst operand => exact hf.regNum_eq s sub8 dst operand
  | jmp target => exact hf.execJmp_eq s target
  | mov dst operand => exact hf.regNum_eq s (fun _ v => v) dst operand
  | inc dst => exact hf.execInc_eq s dst
  | div dst operand => exact hf.execDiv_eq s dst operand
  | mul dst operand => exact hf.regNum_eq s mul8 dst operand
  | nop => exact congrArg _ (hf.advance s 1)
  | hlt => exact congrArg _ (hf.halt s)
  | nopUndefined op => exact congrArg _ (hf.advance s 1)
  | fill operands => rfl
  | clear operands => rfl

end

/-! ### The reserved fields along a run -/

theorem SameReserved.refl (s : State) : SameReserved s s := ⟨rfl, rfl, rfl⟩

theorem SameReserved.trans {s t u : State} (h : SameReserved s t) (h' : SameReserved t u) :
    SameReserved s u :=
  ⟨h'.sp.trans h.sp, h'.flags.trans h.flags, h'.video.trans h.video⟩

theorem NextShape.sameReserved {i : Instr} {s t : State} (h : NextShape i s t) :
    SameReserved s t := by
  cases h with
  | register _ _ _ _ _ _ _ _ ht => subst ht; exact ⟨rfl, rfl, rfl⟩
  | memory _ _ _ ht => subst ht; exact ⟨rfl, rfl, rfl⟩
  | jump _ _ ht => subst ht; exact ⟨rfl, rfl, rfl⟩
  | nothing _ ht => subst ht; exact ⟨rfl, rfl, rfl⟩
  | stop _ ht => subst ht; exact ⟨rfl, rfl, rfl⟩

theorem step_sameReserved {s t : State} (h : step s = .next t) : SameReserved s t := by
  cases hr : s.run with
  | halted =>
    rw [step_halted hr] at h
    cases h
    exact .refl s
  | running =>
    rw [step_running hr] at h
    exact (exec_next h).sameReserved

theorem run_sameReserved {n : Nat} {s t : State} (h : Host.Core.run core n s = .next t) :
    SameReserved s t :=
  run_keeps (P := SameReserved s) (fun _ _ hu hs => hu.trans (step_sameReserved hs)) (.refl s) h

/-- Settles O45: replacing sp is unobserved by exec, and no run changes sp. -/
theorem stackPointerIsZeroAndUnused : Obligations.StackPointerIsZeroAndUnused :=
  ⟨rfl, fun i s v => (unobserved_sp v).exec_eq s i, fun _ _ h => (run_sameReserved h).sp⟩

/-- Settles O46: replacing flags is unobserved by exec, and no run changes flags. -/
theorem flagsAreZeroAndUnused : Obligations.FlagsAreZeroAndUnused :=
  ⟨rfl, fun i s v => (unobserved_flags v).exec_eq s i, fun _ _ h => (run_sameReserved h).flags⟩

end Sys2Proof.Machine

/-! PROOFS. The encoding's static facts (30_encoding.md R83, R84, R87): the tag of an operand byte,
the operand table, and the length an opcode byte gives. -/

namespace Sys2Proof

/-! ### The tag of an operand byte -/

theorem classify_of_lt {b : Byte} (h : b.toNat < 8) : classify b = .register ⟨b.toNat, h⟩ :=
  dif_pos h

theorem classify_of_le {b : Byte} (h : 8 ≤ b.toNat) : classify b = .raw b :=
  dif_neg (Nat.not_lt.mpr h)

/-! ### The operand table -/

/-- Count and length are read off the classes, so a row of the table is its classes alone. -/
theorem Identity.row_of_classes {id : Identity} {cs : List OperandClass} (h : id.classes = cs) :
    id.count = cs.length ∧ id.len = 1 + cs.length ∧ id.classes = cs := by
  subst h
  exact ⟨rfl, rfl, rfl⟩

/-! ### The length an opcode byte gives -/

theorem decode_of_count_le {op : Byte} {rest : List Byte}
    (h : (identity op).1.count ≤ rest.length) :
    decode (op :: rest) = .ok (decodeWith op fun p => rest.getD (p.offset - 1) 0,
      rest.drop (identity op).1.count) :=
  if_neg (Nat.not_lt.mpr h)

/-- Settles O11: with enough operand bytes decode answers, and both the bytes it drops and the
identity it gives come from the opcode byte. -/
theorem opcodeByteAloneTellsLength : Obligations.OpcodeByteAloneTellsLength :=
  fun op _ h => ⟨_, decode_of_count_le h, decodeWith_identity op _⟩

/-- Settles O9: the two branches of the classification. -/
theorem operandByteBelowEightIsRegister : Obligations.OperandByteBelowEightIsRegister :=
  fun _ => ⟨fun h => ⟨_, classify_of_lt (Nat.lt_succ_of_le h), rfl⟩, classify_of_le⟩

/-- Settles O10: each row follows from its classes. -/
theorem operandTableGivesCountLengthClasses : Obligations.OperandTableGivesCountLengthClasses := by
  have numeric : ∀ id ∈ [Identity.add, .sub, .mul, .div, .mov],
      id.classes = [.register, .numeric] := by decide
  exact ⟨fun id h => Identity.row_of_classes (numeric id h),
    Identity.row_of_classes rfl, Identity.row_of_classes rfl, Identity.row_of_classes rfl,
    Identity.row_of_classes rfl, Identity.row_of_classes rfl, Identity.row_of_classes rfl⟩

end Sys2Proof

/-! PROOFS. The decode stage's opcode table (40_instruction_cycle.md R113) and register-class operands
(R116). -/

namespace Sys2Proof

/-! ### The opcode byte -/

theorem Identity.opcode_mem_definedOpcodes (id : Identity) : id.opcode ∈ definedOpcodes := by
  cases id <;> decide

theorem identity_of_not_mem {op : Byte} (h : op ∉ definedOpcodes) : identity op = (.nop, true) := by
  rcases identity_cases op with hop | ⟨id, rfl⟩
  · exact hop
  · exact absurd id.opcode_mem_definedOpcodes h

/-- Settles O8: each listed byte is its identity's own opcode, and any other byte is undefined. -/
theorem opcodeByteSelectsIdentity : Obligations.OpcodeByteSelectsIdentity :=
  ⟨identity_opcode .load, identity_opcode .store, identity_opcode .add, identity_opcode .sub,
    identity_opcode .jmp, identity_opcode .mov, identity_opcode .inc, identity_opcode .div,
    identity_opcode .mul, identity_opcode .nop, identity_opcode .hlt, fun _ => identity_of_not_mem⟩

/-! ### The register-class positions -/

theorem Identity.operand1_register_iff (id : Identity) : id.classes[0]? = some .register ↔
    id ∈ [Identity.load, .add, .sub, .mul, .div, .mov, .inc] := by
  cases id <;> decide

theorem Identity.operand2_register_iff (id : Identity) :
    id.classes[1]? = some .register ↔ id = .store := by
  cases id <;> decide

end Sys2Proof

namespace Sys2Proof.Machine

/-! ### A register-class operand byte -/

theorem regOf_classify_of_lt (p : Position) {b : Byte} (h : b.toNat < 8) :
    regOf p (classify b) = .ok ⟨b.toNat, h⟩ := by
  rw [classify_of_lt h, regOf]

theorem regOf_classify_of_le (p : Position) {b : Byte} (h : 8 ≤ b.toNat) :
    regOf p (classify b) = .error (.invalidRegister p b) := by
  rw [classify_of_le h, regOf]

/-- Settles O21: the byte's tag decides the resolution, and the classes of each identity the
positions. -/
theorem registerOperandIsIndexOrError : Obligations.RegisterOperandIsIndexOrError :=
  ⟨fun p _ => ⟨fun h => ⟨_, regOf_classify_of_lt p (Nat.lt_succ_of_le h), rfl⟩,
      regOf_classify_of_le p⟩,
    Identity.operand1_register_iff, Identity.operand2_register_iff⟩

end Sys2Proof.Machine

/-! PROOFS. The video opcodes (44_video.md R180 to R183): outside the instruction stream, and refused
by name where an execute stage is handed one. -/

namespace Sys2Proof

/-- The decoder's table is all the instruction stream holds: what has no identity in it has no
encoding. -/
theorem encode_eq_none_of_identity {i : Instr} (hlen : Laws.EncodedLength.Statement i)
    (hid : i.identity = none) : encode i = none := by
  rw [Laws.EncodedLength.Statement, hid, Option.map_none] at hlen
  exact Option.map_eq_none_iff.mp hlen

theorem encode_fill (operands : List Byte) : encode (.fill operands) = none :=
  encode_eq_none_of_identity (Laws.EncodedLength.fill operands) rfl

theorem encode_clear (operands : List Byte) : encode (.clear operands) = none :=
  encode_eq_none_of_identity (Laws.EncodedLength.clear operands) rfl

theorem wellFormed_fill_iff (operands : List Byte) :
    (Instr.fill operands).wellFormed = true ↔ operands.length ≤ 2 := by
  rw [Instr.wellFormed, decide_eq_true_iff]

theorem wellFormed_clear_iff (operands : List Byte) :
    (Instr.clear operands).wellFormed = true ↔ operands.length ≤ 2 := by
  rw [Instr.wellFormed, decide_eq_true_iff]

end Sys2Proof

namespace Sys2Proof.Machine

theorem exec_fill (operands : List Byte) (s : State) :
    exec (.fill operands) s = .refused (.videoNotDispatched "Fill") := rfl

theorem exec_clear (operands : List Byte) (s : State) :
    exec (.clear operands) s = .refused (.videoNotDispatched "Clear") := rfl

/-- Settles O38: each row's refusal, its declared value, its absence from the instruction stream, and
its bound on the operand bytes. -/
theorem videoOpcodesAreRefusedByName : Obligations.VideoOpcodesAreRefusedByName :=
  fun operands s => ⟨exec_fill operands s, exec_clear operands s, rfl, rfl,
    encode_fill operands, encode_clear operands,
    wellFormed_fill_iff operands, wellFormed_clear_iff operands⟩

end Sys2Proof.Machine

/-! PROOFS. Construction and load_program (70_reset_and_hazards.md R231, R236). -/

namespace Sys2Proof.Machine

/-! ### The state after construction -/

@[simp] theorem State.readReg_reset (i : RegIdx) : State.reset.readReg i = 0 := by
  revert i
  decide

@[simp] theorem State.memRead_reset (a : Byte) : State.reset.memRead a = 0 :=
  Memory.lookup_nil a.toNat

@[simp] theorem State.pixel_reset (k : Nat) : State.reset.pixel k = Config.videoBaseline := rfl

/-- The length of the snapshot is the construction parameter, whatever the state. -/
@[simp] theorem State.snapshot_length (s : State) : s.snapshot.length = Config.videoPixels := by
  rw [State.snapshot, List.length_map, List.length_range]

/-- Settles O1: each field of the constructed state, and the length of any state's snapshot. -/
theorem constructionZeroesEverythingAndStartsRunning :
    Obligations.ConstructionZeroesEverythingAndStartsRunning :=
  ⟨State.readReg_reset, rfl, rfl, rfl, rfl, State.memRead_reset, State.pixel_reset,
    fun s t _ => t.snapshot_length.trans s.snapshot_length.symm⟩

/-! ### Memory after a load -/

/-- A reachable address reads the image's byte, or 0 past its end: the bytes cut off at 256 are all
in the headroom. -/
theorem Memory.lookup_ofImage (bytes : List Byte) {a : Nat} (ha : a < 256) :
    Memory.lookup (Memory.ofImage bytes) a =
      if a < bytes.length then bytes.getD a 0 else 0 := by
  have htake : (bytes.take 256).getD a 0 = bytes.getD a 0 := by
    rw [List.getD_eq_getElem?_getD, List.getD_eq_getElem?_getD, List.getElem?_take_of_lt ha]
  have hin : 0 ≤ a ∧ a < 0 + (bytes.take 256).length ↔ a < bytes.length := by
    rw [List.length_take]
    omega
  rw [Memory.ofImage, Memory.lookup_putList, Nat.sub_zero, htake, if_congr hin rfl rfl,
    Memory.lookup_nil, Memory.unlisted]

/-- Settles O50: an image that fits is all that memory then holds. -/
theorem loadProgramReplacesMemory : Obligations.LoadProgramReplacesMemory :=
  ⟨fun s bytes hfits => ⟨_, loadProgram_fits s bytes hfits,
      fun a => Memory.lookup_ofImage bytes a.isLt⟩,
    fun _ => rfl⟩

end Sys2Proof.Machine

/-! PROOFS. The invariants along a step (10_state.md R35), runs from Halted, and the canonical form
of general memory as a normal form (log 14). -/

namespace Sys2Proof.Machine

/-! ### What a completed step can be -/

/-- A completed step is the empty step of Halted, or one of the execute stage's next states. -/
theorem step_next {s t : State} (h : step s = .next t) :
    (s.run = .halted ∧ t = s) ∨ (s.run = .running ∧ NextShape s.fetch s t) := by
  cases hr : s.run with
  | halted =>
    rw [step_halted hr] at h
    exact .inl ⟨rfl, (Host.Outcome.next.inj h).symm⟩
  | running =>
    rw [step_running hr] at h
    exact .inr ⟨rfl, exec_next h⟩

/-! ### The invariants -/

theorem SameReserved.pixel_eq {s t : State} (h : SameReserved s t) (k : Nat) :
    t.pixel k = s.pixel k := by
  rw [State.pixel, h.video, State.pixel]

theorem NextShape.mem_wf {i : Instr} {s t : State} (h : NextShape i s t)
    (hs : Memory.wf s.mem = true) : Memory.wf t.mem = true := by
  cases h with
  | register _ _ _ _ _ _ _ _ ht => subst ht; exact hs
  | memory a r _ ht => subst ht; exact State.memWrite_wf s a (s.readReg r) hs
  | jump _ _ ht => subst ht; exact hs
  | nothing _ ht => subst ht; exact hs
  | stop _ ht => subst ht; exact hs

theorem step_mem_wf {s t : State} (h : step s = .next t) (hs : Memory.wf s.mem = true) :
    Memory.wf t.mem = true := by
  rcases step_next h with ⟨_, rfl⟩ | ⟨_, hshape⟩
  · exact hs
  · exact hshape.mem_wf hs

/-- Settles O4: general memory stays canonical whatever is written, and the rest of the invariants
speaks of the reserved fields, which no step changes. -/
theorem everyStepKeepsTheInvariants : Obligations.EveryStepKeepsTheInvariants := by
  intro s t hs h
  have hres := step_sameReserved h
  exact {
    mem_wf := step_mem_wf h hs.mem_wf
    video_wf := hres.video ▸ hs.video_wf
    sp_zero := hres.sp.trans hs.sp_zero
    flags_zero := hres.flags.trans hs.flags_zero
    video_baseline := fun k => (hres.pixel_eq k).trans (hs.video_baseline k) }

/-- Settles O3: the constructed state, field by field. -/
theorem constructionMeetsTheInvariants : Obligations.ConstructionMeetsTheInvariants where
  mem_wf := Memory.reset_wf
  video_wf := rfl
  sp_zero := rfl
  flags_zero := rfl
  video_baseline := State.pixel_reset

/-! ### Runs from Halted -/

theorem core_run_of_step {s t : State} (h : step s = .next t) (k : Nat) :
    Host.Core.run core (k + 1) s = Host.Core.run core k t := by
  have hstep : core.step s = .next t := h
  rw [run_succ core k s, hstep]

theorem run_halted {s : State} (h : s.run = .halted) (n : Nat) :
    Host.Core.run core n s = .next s := by
  induction n with
  | zero => rfl
  | succ n ih => exact (core_run_of_step (step_halted h) n).trans ih

/-- Settles O2: a run from Halted is the state it started from. -/
theorem resetIsConstructionFromAnyState : Obligations.ResetIsConstructionFromAnyState := by
  refine fun s => ⟨rfl, rfl, fun hs n t h => ?_⟩
  rw [run_halted hs n] at h
  exact Host.Outcome.next.inj h ▸ hs

/-! ### Canonical memories -/

theorem Memory.lookup_cons_same (k : Nat) (w : Byte) (m : Memory) :
    Memory.lookup ((k, w) :: m) k = w := if_pos rfl

theorem Memory.lookup_cons_other {k a : Nat} (w : Byte) (m : Memory) (h : k ≠ a) :
    Memory.lookup ((k, w) :: m) a = Memory.lookup m a := if_neg h

theorem Memory.wfFrom_cons_iff {lo k : Nat} {w : Byte} {m : Memory} :
    Memory.wfFrom lo ((k, w) :: m) = true ↔
      lo ≤ k ∧ k < 256 ∧ w ≠ Memory.unlisted ∧ Memory.wfFrom (k + 1) m = true := by
  simp only [Memory.wfFrom, Bool.and_eq_true, decide_eq_true_eq, and_assoc]

/-- The first listed address of a canonical list is the lowest whose byte is not the
unlisted one. -/
theorem Memory.head_le_of_lookup_ne {lo k a : Nat} {w : Byte} {m : Memory}
    (hw : Memory.wfFrom lo ((k, w) :: m) = true)
    (ha : Memory.lookup ((k, w) :: m) a ≠ Memory.unlisted) : k ≤ a := by
  obtain ⟨_, hk, hne, htl⟩ := Memory.wfFrom_cons_iff.mp hw
  by_contra hlt
  exact ha (Memory.wfFrom_lookup_low _ a k
    (Memory.wfFrom_cons_iff.mpr ⟨Nat.le_refl k, hk, hne, htl⟩) (Nat.lt_of_not_le hlt))

/-- A canonical list that reads as unlisted everywhere is empty. -/
theorem Memory.eq_nil_of_lookup_unlisted {lo : Nat} {m : Memory} (hw : Memory.wfFrom lo m = true)
    (h : ∀ a < 256, Memory.lookup m a = Memory.unlisted) : m = [] := by
  cases m with
  | nil => rfl
  | cons c m =>
    obtain ⟨k, w⟩ := c
    obtain ⟨_, hk, hne, _⟩ := Memory.wfFrom_cons_iff.mp hw
    exact absurd ((Memory.lookup_cons_same k w m).symm.trans (h k hk)) hne

/-- Reading alike passes from two canonical lists with the same first cell to their tails: at that
cell's address both tails read as unlisted. -/
theorem Memory.tails_read_alike {k : Nat} {w w' : Byte} {m m' : Memory}
    (hm : Memory.wfFrom (k + 1) m = true) (hm' : Memory.wfFrom (k + 1) m' = true)
    (h : ∀ a < 256, Memory.lookup ((k, w) :: m) a = Memory.lookup ((k, w') :: m') a) :
    ∀ a < 256, Memory.lookup m a = Memory.lookup m' a := by
  intro a ha
  by_cases hk : k = a
  · rw [Memory.wfFrom_lookup_low m a _ hm (by omega),
      Memory.wfFrom_lookup_low m' a _ hm' (by omega)]
  · rw [← Memory.lookup_cons_other w m hk, h a ha, Memory.lookup_cons_other w' m' hk]

theorem Memory.eq_of_lookup_eq {lo : Nat} {m m' : Memory} (hm : Memory.wfFrom lo m = true)
    (hm' : Memory.wfFrom lo m' = true)
    (h : ∀ a < 256, Memory.lookup m a = Memory.lookup m' a) : m = m' := by
  induction m generalizing lo m' with
  | nil => exact (Memory.eq_nil_of_lookup_unlisted hm' fun a ha => (h a ha).symm).symm
  | cons c m ih =>
    obtain ⟨k, w⟩ := c
    cases m' with
    | nil => exact Memory.eq_nil_of_lookup_unlisted hm h
    | cons c' m' =>
      obtain ⟨k', w'⟩ := c'
      obtain ⟨_, hk, hw, htl⟩ := Memory.wfFrom_cons_iff.mp hm
      obtain ⟨_, hk', hw', htl'⟩ := Memory.wfFrom_cons_iff.mp hm'
      have hle : k ≤ k' := Memory.head_le_of_lookup_ne hm <| by
        rwa [h k' hk', Memory.lookup_cons_same]
      have hge : k' ≤ k := Memory.head_le_of_lookup_ne hm' <| by
        rwa [← h k hk, Memory.lookup_cons_same]
      obtain rfl := Nat.le_antisymm hle hge
      have hww : w = w' := by
        rw [← Memory.lookup_cons_same k w m, h k hk, Memory.lookup_cons_same]
      rw [hww, ih htl htl' (Memory.tails_read_alike htl htl' h)]

/-- Settles O5: both lists are canonical from address 0 on. -/
theorem canonicalMemoriesThatReadAlikeAreEqual :
    Obligations.CanonicalMemoriesThatReadAlikeAreEqual :=
  fun _ _ hm hm' h => Memory.eq_of_lookup_eq hm hm' h

end Sys2Proof.Machine

/-! PROOFS. The round trip between bytes and instructions (30_encoding.md R80 to R92), and that a fetch
reads what the list decoder reads from the three bytes at pc. -/

namespace Sys2Proof

/-! ### Encoding -/

theorem encodedLength (i : Instr) : Laws.EncodedLength.Statement i := by
  cases i <;> rfl

theorem encode_length {i : Instr} {id : Identity} {bytes : List Byte}
    (he : encode i = some bytes) (hid : i.identity = some id) : bytes.length = id.len := by
  have h := encodedLength i
  rw [Laws.EncodedLength.Statement, he, hid] at h
  exact Option.some.inj h

theorem encode_of_identity {i : Instr} {id : Identity} (hid : i.identity = some id)
    (hu : ∀ op, i ≠ .nopUndefined op) :
    encode i = some (id.opcode :: i.operands.map Operand.byte) := by
  cases i with
  | nopUndefined op => exact absurd rfl (hu op)
  | _ => simp [encode, hid]

theorem Instr.operands_length {i : Instr} {id : Identity} (hid : i.identity = some id) :
    i.operands.length = id.count := by
  cases i <;> cases hid <;> rfl

theorem Instr.operands_wellFormed {i : Instr} (hw : i.wellFormed = true) :
    ∀ o ∈ i.operands, o.wellFormed = true := by
  cases i <;> simp_all [Instr.operands, Instr.wellFormed]

theorem Instr.nopUndefined_wellFormed_iff {op : Byte} :
    (Instr.nopUndefined op).wellFormed = true ↔ op ∉ definedOpcodes := by
  simp [Instr.wellFormed]

/-! ### Decoding what the encoder wrote -/

theorem decodeWith_of_not_mem {op : Byte} (h : op ∉ definedOpcodes) (operand : Position → Byte) :
    decodeWith op operand = .nopUndefined op := by
  simp [decodeWith, identity_of_not_mem h]

/-- The decoder gives a well-formed instruction back from its opcode byte and its operand bytes,
whatever follows them. -/
theorem decodeWith_opcode_operands {i : Instr} {id : Identity} (hid : i.identity = some id)
    (hu : ∀ op, i ≠ .nopUndefined op) (ho : ∀ o ∈ i.operands, classify o.byte = o)
    (rest : List Byte) :
    decodeWith id.opcode (fun p => (i.operands.map Operand.byte ++ rest).getD (p.offset - 1) 0)
      = i := by
  have two {mk : Operand → Operand → Instr} {o o' : Operand} (h : ∀ x ∈ [o, o'],
      classify x.byte = x) : mk (classify o.byte) (classify o'.byte) = mk o o' :=
    congrArg₂ mk (h o (by simp)) (h o' (by simp))
  have one {mk : Operand → Instr} {o : Operand} (h : ∀ x ∈ [o], classify x.byte = x) :
      mk (classify o.byte) = mk o := congrArg mk (h o (by simp))
  cases i with
  | load dst src => cases hid; exact two ho
  | store dst src => cases hid; exact two ho
  | add dst operand => cases hid; exact two ho
  | sub dst operand => cases hid; exact two ho
  | jmp target => cases hid; exact one ho
  | mov dst operand => cases hid; exact two ho
  | inc dst => cases hid; exact one ho
  | div dst operand => cases hid; exact two ho
  | mul dst operand => cases hid; exact two ho
  | nop => cases hid; rfl
  | hlt => cases hid; rfl
  | nopUndefined op => exact absurd rfl (hu op)
  | fill operands => cases hid
  | clear operands => cases hid

theorem decode_encoded {i : Instr} {id : Identity} (hid : i.identity = some id)
    (hu : ∀ op, i ≠ .nopUndefined op) (hw : i.wellFormed = true) (rest : List Byte) :
    decode (id.opcode :: i.operands.map Operand.byte ++ rest) = .ok (i, rest) := by
  have hlen : (i.operands.map Operand.byte).length = (identity id.opcode).1.count := by
    rw [List.length_map, Instr.operands_length hid, identity_opcode]
  rw [List.cons_append, decode_of_count_le (by rw [List.length_append]; omega),
    List.drop_left' hlen, decodeWith_opcode_operands hid hu
      fun o h => classify_of_byte o (Instr.operands_wellFormed hw o h)]

theorem decode_undefined {op : Byte} (h : op ∉ definedOpcodes) (rest : List Byte) :
    decode (op :: rest) = .ok (.nopUndefined op, rest) := by
  have hcount : (identity op).1.count = 0 := by rw [identity_of_not_mem h]; rfl
  rw [decode_of_count_le (by omega), decodeWith_of_not_mem h, hcount, List.drop_zero]

/-- Settles O6: an undefined opcode is its own encoding, and every other identity's encoding is its
opcode byte and its operands' bytes. -/
theorem decodeUndoesEncode : Obligations.DecodeUndoesEncode := by
  intro i id hw hid
  by_cases hu : ∃ op, i = .nopUndefined op
  · obtain ⟨op, rfl⟩ := hu
    exact ⟨[op], rfl, encode_length rfl hid,
      decode_undefined (Instr.nopUndefined_wellFormed_iff.mp hw)⟩
  · have hu' : ∀ op, i ≠ .nopUndefined op := fun op h => hu ⟨op, h⟩
    have he := encode_of_identity hid hu'
    exact ⟨_, he, encode_length he hid, decode_encoded hid hu' hw⟩

/-! ### Encoding what the decoder read -/

theorem decode_ok {bytes rest : List Byte} {i : Instr} (h : decode bytes = .ok (i, rest)) :
    ∃ op tail, bytes = op :: tail ∧ (identity op).1.count ≤ tail.length ∧
      i = decodeWith op (fun p => tail.getD (p.offset - 1) 0) ∧
      rest = tail.drop (identity op).1.count := by
  cases bytes with
  | nil => cases h
  | cons op tail =>
    by_cases hc : (identity op).1.count ≤ tail.length
    · rw [decode_of_count_le hc] at h
      cases h
      exact ⟨op, tail, rfl, hc, rfl, rfl⟩
    · simp [decode, Nat.lt_of_not_le hc] at h

theorem decodeWith_wellFormed (op : Byte) (operand : Position → Byte) :
    (decodeWith op operand).wellFormed = true := by
  by_cases h : op ∈ definedOpcodes
  · rcases identity_cases op with hop | ⟨id, rfl⟩
    · have hdef := identity_undefined op
      simp [hop, h] at hdef
    · cases id <;> simp [decodeWith, Instr.wellFormed]
  · rw [decodeWith_of_not_mem h]
    exact Instr.nopUndefined_wellFormed_iff.mpr h

/-- The positions an identity's operand bytes stand in, in stream order (30_encoding.md R81). -/
def Identity.positions (id : Identity) : List Position := [.operand1, .operand2].take id.count

/-- The encoding of what the decoder made is the bytes it was made from. -/
theorem encode_decodeWith (op : Byte) (operand : Position → Byte) :
    encode (decodeWith op operand) = some (op :: (identity op).1.positions.map operand) := by
  rcases identity_cases op with hop | ⟨id, rfl⟩
  · simp [decodeWith, encode, hop, Identity.positions, Identity.count, Identity.classes]
  · cases id <;> simp [decodeWith, encode, Instr.identity, Instr.operands, Identity.positions,
      Identity.count, Identity.classes]

/-- Read position by position, a tail long enough gives its first bytes. -/
theorem Identity.map_positions_getD {id : Identity} {tail : List Byte}
    (h : id.count ≤ tail.length) :
    id.positions.map (fun p => tail.getD (p.offset - 1) 0) = tail.take id.count := by
  have hcount := id.count_le_two
  apply List.ext_getElem
  · simp only [Identity.positions, List.length_map, List.length_take, List.length_cons,
      List.length_nil]
    omega
  · intro k hk hk'
    have hlt : k < id.count ∧ k < tail.length := by simpa using hk'
    match k, hlt with
    | 0, hlt => simp [Identity.positions, Position.offset, hlt.2]
    | 1, hlt => simp [Identity.positions, Position.offset, hlt.2]
    | k + 2, hlt => omega

/-- Settles O7: decode consumes the opcode byte and as many bytes of the tail as it drops, and those
are what its instruction encodes to. -/
theorem encodeUndoesDecode : Obligations.EncodeUndoesDecode := by
  intro bytes i rest h
  obtain ⟨op, tail, rfl, hc, rfl, rfl⟩ := decode_ok h
  refine ⟨decodeWith_wellFormed op _, _, encode_decodeWith op _, ?_⟩
  rw [Identity.map_positions_getD hc, List.cons_append, List.take_append_drop]

/-- Settles O12: the decoder run on four closed byte lists. -/
theorem writtenOutWordsDecode : Obligations.WrittenOutWordsDecode := by
  unfold Obligations.WrittenOutWordsDecode
  decide

end Sys2Proof

namespace Sys2Proof.Machine

/-! ### The fetch -/

theorem State.fetch_identity (s : State) :
    s.fetch.identity = some (identity (s.memRead s.pc)).1 :=
  decodeWith_identity _ _

theorem State.fetchAddr_zero (s : State) : s.fetchAddr 0 = s.pc := by
  rw [State.fetchAddr, add8_eq, BitVec.add_zero]

theorem State.fetchByte_zero (s : State) : s.fetchByte 0 = s.memRead s.pc := by
  rw [State.fetchByte, State.fetchAddr_zero]

/-- The list decoder reads from the three bytes at pc the instruction the fetch gives. -/
theorem State.decode_fetchWindow (s : State) :
    ∃ rest, decode s.fetchWindow = .ok (s.fetch, rest) := by
  have hoperand : (fun p : Position => [s.fetchByte 1, s.fetchByte 2].getD (p.offset - 1) 0) =
      fun p => s.fetchByte p.offset := by
    funext p
    cases p <;> rfl
  have h := decode_three (s.fetchByte 0) (s.fetchByte 1) (s.fetchByte 2)
  rw [hoperand, ← State.fetchWindow] at h
  exact ⟨_, by rw [h, State.fetchByte_zero, State.fetch]⟩

/-- What has an identity is no video row. -/
theorem Instr.ne_video_of_identity {i : Instr} {id : Identity} (h : i.identity = some id) :
    (∀ operands, i ≠ .fill operands) ∧ ∀ operands, i ≠ .clear operands := by
  constructor <;> rintro operands rfl <;> cases h

/-- Settles O37: whatever the decoder makes, from a list or in a fetch, has its opcode byte's
identity. -/
theorem videoOpcodesAreNeverDecoded : Obligations.VideoOpcodesAreNeverDecoded := by
  refine ⟨fun bytes i rest h => ?_, fun s => Instr.ne_video_of_identity s.fetch_identity⟩
  obtain ⟨op, tail, _, _, rfl, _⟩ := decode_ok h
  exact Instr.ne_video_of_identity (decodeWith_identity op _)

/-- Settles O14: the decoded instruction is the fetched one, so a Running step executes it. -/
theorem runningStepExecutesDecodedInstruction :
    Obligations.RunningStepExecutesDecodedInstruction := by
  intro s i rest hr h
  obtain ⟨rest', hfetch⟩ := s.decode_fetchWindow
  rw [h] at hfetch
  cases hfetch
  exact ⟨decodeWith_wellFormed _ _, step_running hr⟩

theorem State.fetchWindow_of_pc {s : State} {p : Byte} (h : s.pc = p) :
    s.fetchWindow = [s.memRead (add8 p 0), s.memRead (add8 p 1), s.memRead (add8 p 2)] := by
  subst h
  rfl

/-- Settles O13: pc, pc + 1 and pc + 2 modulo 256, computed at the two top addresses. -/
theorem fetchWrapsAtTheTopOfMemory : Obligations.FetchWrapsAtTheTopOfMemory :=
  fun _ => ⟨State.fetchWindow_of_pc, State.fetchWindow_of_pc⟩

/-! ### A placed table word -/

theorem State.fetchAddr_ne (s : State) {j k : Nat} (h : j < k) (hk : k < 256) :
    s.fetchAddr j ≠ s.fetchAddr k := by
  intro e
  have hn := congrArg BitVec.toNat e
  have hpc := s.pc.isLt
  simp only [State.fetchAddr, add8_toNat, BitVec.toNat_ofNat] at hn
  omega

@[simp] theorem State.fetchAddr_memWrite (s : State) (a v : Byte) (k : Nat) :
    (s.memWrite a v).fetchAddr k = s.fetchAddr k := rfl

/-- Bytes placed from offset k on leave the offsets before it as they were. -/
theorem State.fetchByte_placeBytes_before (bs : List Byte) (s : State) {j k : Nat} (hj : j < k)
    (hk : k + bs.length ≤ 256) : (s.placeBytes k bs).fetchByte j = s.fetchByte j := by
  induction bs generalizing s k with
  | nil => rfl
  | cons b bs ih =>
    rw [List.length_cons] at hk
    rw [State.placeBytes, ih _ (by omega) (by omega), State.fetchByte, State.fetchAddr_memWrite,
      State.memRead_memWrite_other s b (s.fetchAddr_ne hj (by omega)), State.fetchByte]

/-- Byte n of the bytes placed from offset k on is fetched at offset k + n. -/
theorem State.fetchByte_placeBytes (bs : List Byte) (s : State) {k n : Nat} (hn : n < bs.length)
    (hk : k + bs.length ≤ 256) : (s.placeBytes k bs).fetchByte (k + n) = bs[n] := by
  induction bs generalizing s k n with
  | nil => cases hn
  | cons b bs ih =>
    rw [List.length_cons] at hn hk
    rw [State.placeBytes]
    cases n with
    | zero =>
      rw [State.fetchByte_placeBytes_before _ _ (by omega) (by omega)]
      exact State.memRead_memWrite_same s _ b
    | succ n =>
      have h := ih (s.memWrite (s.fetchAddr k) b) (k := k + 1) (n := n) (by omega) (by omega)
      rwa [Nat.add_right_comm] at h

/-- The next fetch reads the three bytes of the placed word. -/
theorem State.fetchWindow_withFetchWord (s : State) (nbits w : Nat) :
    (s.withFetchWord nbits w).fetchWindow = tableBytes nbits w := by
  have h : ∀ n (hn : n < 3),
      (s.placeBytes 0 (tableBytes nbits w)).fetchByte (0 + n) = (tableBytes nbits w)[n]'hn :=
    fun n hn => State.fetchByte_placeBytes _ s hn (by decide : 0 + 3 ≤ 256)
  exact congrArg₂ _ (h 0 (by decide)) (congrArg₂ _ (h 1 (by decide))
    (congrArg₂ _ (h 2 (by decide)) rfl))

/-- Settles O20: the placed state's window is the table word's bytes, and that state is Running. -/
theorem placedWordIsExecutedNext : Obligations.PlacedWordIsExecutedNext := by
  intro s nbits w
  obtain ⟨rest, hfetch⟩ := (s.withFetchWord nbits w).decode_fetchWindow
  rw [State.fetchWindow_withFetchWord] at hfetch
  exact ⟨_, by rw [decodeTableWord, hfetch], step_running rfl⟩

end Sys2Proof.Machine

/-! PROOFS. What a step answers and what the host sees of it (40_instruction_cycle.md R110, R121, R125),
and the end of a run (R126). -/

namespace Sys2Proof.Machine

/-! ### The three outcomes of a step -/

/-- A step decodes no video row, and only those are refused. -/
theorem step_ne_refused (s : State) (r : Refusal) : step s ≠ .refused r := by
  intro h
  cases hr : s.run with
  | halted => rw [step_halted hr] at h; cases h
  | running =>
    rw [step_running hr] at h
    cases s.fetch_identity.symm.trans (exec_refused h)

theorem step_fault_running {s : State} {f : Fault} (h : step s = .fault f) : s.run = .running := by
  cases hr : s.run with
  | halted => rw [step_halted hr] at h; cases h
  | running => rfl

/-- Settles O15: a refusal needs a video row, and Halted answers its own state. -/
theorem stepAlwaysAnswers : Obligations.StepAlwaysAnswers := by
  intro s
  cases hs : step s with
  | next t => exact .inl ⟨t, rfl⟩
  | fault f => exact .inr ⟨f, rfl, step_fault_running hs⟩
  | refused r => exact absurd hs (step_ne_refused s r)

/-! ### What a completed instruction does to the run state and to pc -/

theorem NextShape.run_cases {i : Instr} {s t : State} (h : NextShape i s t) :
    t.run = s.run ∨ (i = .hlt ∧ t.run = .halted) := by
  cases h with
  | register _ _ _ _ _ _ _ _ ht => exact .inl (by rw [ht]; rfl)
  | memory _ _ _ ht => exact .inl (by rw [ht]; rfl)
  | jump _ _ ht => exact .inl (by rw [ht]; rfl)
  | nothing _ ht => exact .inl (by rw [ht]; rfl)
  | stop hi ht => exact .inr ⟨hi, by rw [ht]; rfl⟩

/-- Settles O17: of the next states only Hlt's has another run state. -/
theorem onlyHltStopsTheEngine : Obligations.OnlyHltStopsTheEngine :=
  fun _ _ _ h => (exec_next h).run_cases

theorem NextShape.pc_advances {i : Instr} {id : Identity} {s t : State} (h : NextShape i s t)
    (hid : i.identity = some id) (hj : id ≠ .jmp) (hh : id ≠ .hlt) :
    t.pc.toNat = (s.pc.toNat + id.len) % 256 := by
  cases h with
  | register d v id' _ _ hid' _ _ ht =>
    obtain rfl : id' = id := Option.some.inj (hid'.symm.trans hid)
    rw [ht, State.advance_pc_toNat, State.writeReg_pc]
  | memory a r hi ht =>
    subst hi
    cases hid
    rw [ht, State.advance_pc_toNat, State.memWrite_pc]
    rfl
  | jump a hi _ =>
    subst hi
    cases hid
    exact absurd rfl hj
  | nothing hi ht =>
    have hnop : id = .nop := by
      rcases hi with rfl | ⟨op, rfl⟩ <;> exact (Option.some.inj hid).symm
    rw [ht, State.advance_pc_toNat, hnop]
    rfl
  | stop hi _ =>
    subst hi
    cases hid
    exact absurd rfl hh

/-- Settles O18: the register shape carries its identity's length, Store's is 3 and Nop's 1. -/
theorem pcAdvancesByEncodedLength : Obligations.PcAdvancesByEncodedLength :=
  fun _ _ _ _ hid hj hh h => (exec_next h).pc_advances hid hj hh

/-! ### An undefined opcode byte at pc -/

theorem exec_nop (s : State) : exec .nop s = .next (s.advance 1) := rfl

theorem exec_nopUndefined (op : Byte) (s : State) :
    exec (.nopUndefined op) s = .next (s.advance 1) := rfl

theorem State.fetch_of_not_mem {s : State} (h : s.memRead s.pc ∉ definedOpcodes) :
    s.fetch = .nopUndefined (s.memRead s.pc) :=
  decodeWith_of_not_mem h _

theorem step_of_not_mem {s : State} (hr : s.run = .running)
    (h : s.memRead s.pc ∉ definedOpcodes) : step s = .next (s.advance 1) := by
  rw [step_running hr, State.fetch_of_not_mem h, exec_nopUndefined]

theorem State.undefinedOpcode_iff (s : State) :
    s.undefinedOpcode = true ↔ s.run = .running ∧ s.memRead s.pc ∉ definedOpcodes := by
  cases hr : s.run <;> simp [State.undefinedOpcode, hr, identity_undefined]

theorem State.undefinedOpcode_halted {s : State} (h : s.run = .halted) :
    s.undefinedOpcode = false := by
  simp [State.undefinedOpcode, h]

/-! ### The host's step, by the outcome of the step -/

theorem hostStep_next {s t : State} (h : step s = .next t) :
    hostStep s = .ok (t, ⟨.ok, s.undefinedOpcode, t.run⟩) := by
  rw [hostStep, h]

theorem hostStep_fault {s : State} {f : Fault} (h : step s = .fault f) :
    hostStep s = .ok (s, ⟨.err f, false, .running⟩) := by
  rw [hostStep, h, step_fault_running h]

/-- Err is the reply to a step that raised, and to no other. -/
theorem step_fault_of_hostStep {s t : State} {out : StepOutputs} {f : Fault}
    (h : hostStep s = .ok (t, out)) (hout : out.result = .err f) : step s = .fault f := by
  cases hs : step s with
  | next u =>
    rw [hostStep_next hs] at h
    cases h
    cases hout
  | fault g =>
    rw [hostStep_fault hs] at h
    cases h
    rw [StepResult.err.inj hout]
  | refused r => exact absurd hs (step_ne_refused s r)

/-- Settles O43: Err means that the step raised, and then the host keeps the state. -/
theorem failedStepChangesNothing : Obligations.FailedStepChangesNothing := by
  intro s t out f h hout
  have hs := step_fault_of_hostStep h hout
  have hreply := hostStep_fault hs
  rw [hreply] at h
  cases h
  exact ⟨rfl, rfl, step_fault_running hs, hreply⟩

/-- Settles O44: a step that completes has the diagnostic of its opcode byte; one that raises has
none, and an undefined byte never raises. -/
theorem diagnosticMarksUndefinedOpcodeSteps : Obligations.DiagnosticMarksUndefinedOpcodeSteps := by
  intro s
  rcases stepAlwaysAnswers s with ⟨t, hs⟩ | ⟨f, hs, hr⟩
  · exact ⟨t, _, hostStep_next hs, rfl, s.undefinedOpcode_iff, fun _ => rfl⟩
  · refine ⟨s, _, hostStep_fault hs, hr.symm, ⟨nofun, fun ⟨_, hu⟩ => ?_⟩, nofun⟩
    rw [step_of_not_mem hr hu] at hs
    cases hs

/-! ### The accesses of a step, by the run state -/

theorem State.stepReads_running {s : State} (h : s.run = .running) :
    s.stepReads = s.fetchReads ++ dataReads s.fetch := by
  simp [State.stepReads, h]

theorem State.stepWrites_running {s : State} (h : s.run = .running) :
    s.stepWrites = dataWrites s.fetch := by
  simp [State.stepWrites, h]

theorem State.stepReads_halted {s : State} (h : s.run = .halted) : s.stepReads = [] := by
  simp [State.stepReads, h]

theorem State.stepWrites_halted {s : State} (h : s.run = .halted) : s.stepWrites = [] := by
  simp [State.stepWrites, h]

/-- Settles O16: the empty step, its access lists and its reply. -/
theorem haltedStepDoesNothing : Obligations.HaltedStepDoesNothing := by
  intro s h
  refine ⟨step_halted h, State.stepReads_halted h, State.stepWrites_halted h, ?_⟩
  rw [hostStep_next (step_halted h), State.undefinedOpcode_halted h, h]

/-! ### The end of a run -/

theorem State.final_or_running (s : State) : s.Final ∨ s.run = .running := by
  cases hr : s.run with
  | halted => exact .inl hr
  | running => exact .inr rfl

theorem not_final_of_running {s : State} (h : s.run = .running) : ¬ s.Final := by
  rw [State.Final, h]
  nofun

/-- A step out of a state that is not final ends in a final one exactly when it executes Hlt. -/
theorem step_final_iff {s t : State} (hf : ¬ s.Final) (h : step s = .next t) :
    t.Final ↔ s.fetch = .hlt := by
  have hr : s.run = .running := s.final_or_running.resolve_left hf
  rw [step_running hr] at h
  constructor
  · intro ht
    rcases (exec_next h).run_cases with hrun | ⟨hi, _⟩
    · exact absurd (hrun.symm.trans ht) hf
    · exact hi
  · intro hi
    rw [hi] at h
    cases h
    rfl

/-- Settles O53: Halted is final by definition, only Hlt leads there, and nothing leads away. -/
theorem finalStatesAreReachedByHltAndLast : Obligations.FinalStatesAreReachedByHltAndLast :=
  ⟨fun _ => Iff.rfl, fun _ _ => step_final_iff, fun _ => run_halted,
    fun _ _ h => not_final_of_running (step_fault_running h)⟩

/-- Settles O54: by the number of steps allowed; a final state and a step that raises end the run
where it stands, and a step that completes hands it on. -/
theorem runEndsHaltedStoppedOrFailed : Obligations.RunEndsHaltedStoppedOrFailed := by
  intro n
  induction n with
  | zero =>
    intro s
    by_cases hf : s.Final
    · exact ⟨0, s, Nat.le_refl 0, rfl, .inl ⟨hf, hostRun_final hf 0⟩⟩
    · exact ⟨0, s, Nat.le_refl 0, rfl, .inr (.inl ⟨hf, rfl, hostRun_zero hf⟩)⟩
  | succ n ih =>
    intro s
    by_cases hf : s.Final
    · exact ⟨0, s, Nat.zero_le _, rfl, .inl ⟨hf, hostRun_final hf _⟩⟩
    rcases stepAlwaysAnswers s with ⟨u, hs⟩ | ⟨f, hs, _⟩
    · obtain ⟨k, t, hk, hrun, hend⟩ := ih u
      refine ⟨k + 1, t, Nat.succ_le_succ hk, (core_run_of_step hs k).trans hrun, ?_⟩
      rw [hostRun_next hf hs]
      exact hend.imp_right (Or.imp_left fun ⟨ht, hkn, hstop⟩ => ⟨ht, congrArg Nat.succ hkn, hstop⟩)
    · exact ⟨0, s, Nat.zero_le _, rfl,
        .inr (.inr ⟨f, hf, hs, hostRun_fault hf hs n, hostRun_fault hf hs⟩)⟩

end Sys2Proof.Machine

/-! PROOFS. Operand resolution by class (40_instruction_cycle.md R117, R118), and what each instruction
writes and leaves unchanged (41_data_transfer.md, 42_arithmetic.md, 43_control.md). -/

namespace Sys2Proof.Machine

/-! ### Address-class and numeric-class operand bytes -/

theorem addrOf_classify_of_le (p : Position) {b : Byte} (h : 8 ≤ b.toNat) :
    addrOf p (classify b) = .ok b := by
  rw [classify_of_le h, addrOf]

theorem addrOf_classify_of_lt (p : Position) {b : Byte} (h : b.toNat < 8) :
    addrOf p (classify b) = .error (.invalidAddress p b) := by
  have hbyte := classify_byte b
  rw [classify_of_lt h] at hbyte ⊢
  rw [addrOf, hbyte]

theorem numericValue_of_lt (s : State) {b : Byte} (h : b.toNat < 8) :
    numericValue s b = s.readReg ⟨b.toNat, h⟩ := dif_pos h

theorem numericValue_of_le (s : State) {b : Byte} (h : 8 ≤ b.toNat) : numericValue s b = b :=
  dif_neg (Nat.not_lt.mpr h)

/-- Resolving the tag of a byte gives the value the spec writes from the byte. -/
theorem numOf_classify (s : State) (b : Byte) : numOf s (classify b) = numericValue s b := by
  by_cases h : b.toNat < 8
  · rw [classify_of_lt h, numericValue_of_lt s h, numOf]
  · rw [classify_of_le (Nat.le_of_not_lt h), numericValue_of_le s (Nat.le_of_not_lt h), numOf]

/-- Settles O22: a byte of 8 or more keeps its value as a raw tag, and a register tag is refused
with the byte it stands for. -/
theorem addressOperandIsByteOrError : Obligations.AddressOperandIsByteOrError :=
  fun p _ => ⟨addrOf_classify_of_le p, fun h => addrOf_classify_of_lt p (Nat.lt_succ_of_le h)⟩

/-- Settles O23: both branches of the numeric value. -/
theorem numericOperandIsRegisterValueOrByte : Obligations.NumericOperandIsRegisterValueOrByte := by
  refine fun s b => ⟨fun i h => ?_, fun h => ?_⟩
  · have hlt : b.toNat < 8 := h ▸ i.isLt
    have hi : i = ⟨b.toNat, hlt⟩ := Fin.ext h.symm
    rw [numOf_classify, numericValue_of_lt s hlt, hi]
  · rw [numOf_classify, numericValue_of_le s h]

/-! ### Frames of the state's updates -/

theorem Frame.refl (s : State) : Frame [] [] s s :=
  ⟨fun _ _ => rfl, fun _ _ => rfl, rfl, .refl s⟩

theorem Frame.setPc {rs : List RegIdx} {bs : List Byte} {s t : State} (h : Frame rs bs s t)
    (a : Byte) : Frame rs bs s (t.setPc a) where
  regs := h.regs
  mem := h.mem
  run := h.run
  reserved := ⟨h.reserved.sp, h.reserved.flags, h.reserved.video⟩

theorem Frame.advance {rs : List RegIdx} {bs : List Byte} {s t : State} (h : Frame rs bs s t)
    (n : Nat) : Frame rs bs s (t.advance n) := h.setPc _

theorem frame_writeReg (s : State) (d : RegIdx) (v : Byte) : Frame [d] [] s (s.writeReg d v) where
  regs r hr := s.readReg_writeReg_other d r v (List.ne_of_not_mem_cons hr)
  mem _ _ := rfl
  run := rfl
  reserved := ⟨rfl, rfl, rfl⟩

theorem frame_memWrite (s : State) (a v : Byte) : Frame [] [a] s (s.memWrite a v) where
  regs _ _ := rfl
  mem _ hb := s.memRead_memWrite_other v (List.ne_of_not_mem_cons hb)
  run := rfl
  reserved := ⟨rfl, rfl, rfl⟩

/-- What an instruction that answers one register and an advance of pc has done. -/
theorem writeReg_advance_effect (s : State) (d : RegIdx) (v : Byte) (n : Nat) :
    ((s.writeReg d v).advance n).readReg d = v ∧
      ((s.writeReg d v).advance n).pc.toNat = (s.pc.toNat + n) % 256 ∧
      Frame [d] [] s ((s.writeReg d v).advance n) :=
  ⟨s.readReg_writeReg_same d v, State.advance_pc_toNat _ n, (frame_writeReg s d v).advance n⟩

/-! ### Data transfer -/

theorem exec_load (s : State) (d : RegIdx) (a : Byte) : exec (.load (.register d) (.raw a)) s =
    .next ((s.writeReg d (s.memRead a)).advance 3) := rfl

theorem exec_store (s : State) (a : Byte) (r : RegIdx) : exec (.store (.raw a) (.register r)) s =
    .next ((s.memWrite a (s.readReg r)).advance 3) := rfl

/-- Settles O24: Load writes the byte at the address to its register. -/
theorem loadCopiesMemoryByteToRegister : Obligations.LoadCopiesMemoryByteToRegister :=
  fun s d a _ => ⟨_, exec_load s d a, writeReg_advance_effect s d (s.memRead a) 3⟩

/-- Settles O25: Store writes its register's value to the one cell. -/
theorem storeCopiesRegisterToOneCell : Obligations.StoreCopiesRegisterToOneCell :=
  fun s a r _ => ⟨_, exec_store s a r, s.memRead_memWrite_same a (s.readReg r),
    State.advance_pc_toNat _ 3, (frame_memWrite s a (s.readReg r)).advance 3⟩

/-- Settles O27: a fetch from the written address reads the written cell. -/
theorem storeIsSeenByNextFetch : Obligations.StoreIsSeenByNextFetch := by
  intro s t a r k h hk
  have ht := Host.Outcome.next.inj ((exec_store s a r).symm.trans h)
  rw [State.fetchByte, hk, ← ht]
  exact s.memRead_memWrite_same a (s.readReg r)

/-! ### The shape of Add, Sub, Mul and Mov -/

theorem regNum_effect (f : Byte → Byte → Byte) (s : State) (d : RegIdx) (n : Byte) :
    ∃ t, regNum f (.register d) (classify n) s = .next t ∧
      t.readReg d = f (s.readReg d) (numericValue s n) ∧
      t.pc.toNat = (s.pc.toNat + 3) % 256 ∧ Frame [d] [] s t := by
  rw [← numOf_classify]
  exact ⟨_, rfl, writeReg_advance_effect s d _ 3⟩

/-- Settles O26: the shape with the operand as the result. -/
theorem movCopiesNumericOperand : Obligations.MovCopiesNumericOperand :=
  fun s d n => regNum_effect (fun _ v => v) s d n

/-- Settles O28: the shape with the wrapped sum. -/
theorem addWritesSumModulo256 : Obligations.AddWritesSumModulo256 := by
  intro s d n
  obtain ⟨t, ht, hd, hrest⟩ := regNum_effect add8 s d n
  exact ⟨t, ht, by rw [hd, add8_toNat], hrest⟩

theorem sub8_toNat_int (a b : Byte) :
    ((sub8 a b).toNat : Int) = ((a.toNat : Int) - (b.toNat : Int)) % 256 := by
  have hb := b.isLt
  rw [sub8_toNat]
  omega

/-- Settles O29: the shape with the wrapped difference, the register the minuend. -/
theorem subWritesDifferenceModulo256 : Obligations.SubWritesDifferenceModulo256 := by
  intro s d n
  obtain ⟨t, ht, hd, hrest⟩ := regNum_effect sub8 s d n
  exact ⟨t, ht, by rw [hd, sub8_toNat_int], hrest⟩

/-- Settles O30: the shape with the low byte of the product. -/
theorem mulWritesProductModulo256 : Obligations.MulWritesProductModulo256 := by
  intro s d n
  obtain ⟨t, ht, hd, hrest⟩ := regNum_effect mul8 s d n
  exact ⟨t, ht, by rw [hd, mul8_toNat], hrest⟩

/-! ### Div and Inc -/

theorem exec_div_some {s : State} {d : RegIdx} {o : Operand} {q : Byte}
    (h : divU (s.readReg d) (numOf s o) = some q) :
    exec (.div (.register d) o) s = .next ((s.writeReg d q).advance 3) := by
  simp only [exec, execDiv, regOf, resolve_ok, h]

theorem exec_div_none {s : State} {d : RegIdx} {o : Operand}
    (h : divU (s.readReg d) (numOf s o) = none) :
    exec (.div (.register d) o) s = .fault .divideByZero := by
  simp only [exec, execDiv, regOf, resolve_ok, h, raise]

theorem exec_inc (s : State) (d : RegIdx) : exec (.inc (.register d)) s =
    .next ((s.writeReg d (add8 (s.readReg d) 1)).advance 2) := rfl

/-- Settles O31: a divisor other than 0 has a quotient, the floor. -/
theorem divWritesFloorQuotient : Obligations.DivWritesFloorQuotient := by
  intro s d n hn
  obtain ⟨q, hq, hfloor⟩ := divU_of_ne_zero (s.readReg d) (numericValue s n) hn
  obtain ⟨hd, hpc, hframe⟩ := writeReg_advance_effect s d q 3
  rw [← numOf_classify] at hq
  exact ⟨_, exec_div_some hq, by rw [hd, hfloor], hpc, hframe⟩

/-- Settles O32: Inc adds 1 and is two bytes long. -/
theorem incAddsOneModulo256 : Obligations.IncAddsOneModulo256 := by
  intro s d
  obtain ⟨hd, hpc, hframe⟩ := writeReg_advance_effect s d (add8 (s.readReg d) 1) 2
  exact ⟨_, exec_inc s d, by rw [hd, add8_toNat]; rfl, hpc, hframe⟩

/-! ### Control -/

theorem exec_jmp (s : State) (a : Byte) : exec (.jmp (.raw a)) s = .next (s.setPc a) := rfl

theorem exec_hlt (s : State) : exec .hlt s = .next s.halt := rfl

theorem advance_effect (s : State) (n : Nat) :
    (s.advance n).pc.toNat = (s.pc.toNat + n) % 256 ∧ Frame [] [] s (s.advance n) :=
  ⟨State.advance_pc_toNat s n, (Frame.refl s).advance n⟩

/-- Settles O33: Jmp sets pc alone. -/
theorem jmpSetsPcToTarget : Obligations.JmpSetsPcToTarget :=
  fun s a _ => ⟨_, exec_jmp s a, s.setPc_pc a, (Frame.refl s).setPc a⟩

/-- Settles O34: Nop advances pc alone. -/
theorem nopOnlyAdvancesPc : Obligations.NopOnlyAdvancesPc :=
  fun s => ⟨_, exec_nop s, advance_effect s 1⟩

/-- Settles O35: both instructions answer the same advance, and an undefined byte at pc is fetched
as the second. -/
theorem undefinedOpcodeByteExecutesAsNop : Obligations.UndefinedOpcodeByteExecutesAsNop := by
  refine fun s op => ⟨⟨_, exec_nopUndefined op s, exec_nop s, advance_effect s 1⟩,
    fun hr hop hu => ?_⟩
  subst hop
  have hstep := step_of_not_mem hr hu
  refine ⟨_, hstep, exec_nop s, ?_⟩
  rw [hostStep_next hstep, s.undefinedOpcode_iff.mpr ⟨hr, hu⟩, State.advance_run, hr]

/-- Settles O36: Hlt sets the run state alone. -/
theorem hltHaltsAndFreezesPc : Obligations.HltHaltsAndFreezesPc :=
  fun s => ⟨_, exec_hlt s, s.halt_run, s.halt_pc, fun _ _ => rfl, fun _ _ => rfl, ⟨rfl, rfl, rfl⟩⟩

/-! ### Class errors -/

theorem resolve_regOf_classify {b : Byte} (h : 8 ≤ b.toNat) (p : Position) (k : RegIdx → Answer) :
    resolve (regOf p (classify b)) k = .fault (.invalidRegister p b) := by
  rw [regOf_classify_of_le p h, resolve_error]

theorem resolve_addrOf_classify {b : Byte} (h : b.toNat < 8) (p : Position) (k : Byte → Answer) :
    resolve (addrOf p (classify b)) k = .fault (.invalidAddress p b) := by
  rw [addrOf_classify_of_lt p h, resolve_error]

/-- Settles O39: each of these instructions resolves the raw operand as a register, a Store after
its legal address. -/
theorem rawRegisterOperandRaisesInvalidRegister :
    Obligations.RawRegisterOperandRaisesInvalidRegister := by
  intro s b o hb
  rw [← classify_of_le hb]
  have hdst := resolve_regOf_classify hb .operand1
  exact ⟨hdst _, hdst _, hdst _, hdst _, hdst _, hdst _, hdst _,
    fun _ _ => resolve_regOf_classify hb .operand2 _⟩

/-- Settles O40: each of these instructions resolves the low byte as an address, a Load after its
legal destination. -/
theorem lowAddressOperandRaisesInvalidAddress :
    Obligations.LowAddressOperandRaisesInvalidAddress := by
  intro s b d o hb
  have low := resolve_addrOf_classify (Nat.lt_succ_of_le hb)
  exact ⟨low .operand2 _, low .operand1 _, low .operand1 _⟩

/-- Settles O42: operand1 is resolved first, whatever operand2 and the divisor are. -/
theorem firstOperandErrorIsReported : Obligations.FirstOperandErrorIsReported :=
  ⟨fun _ _ _ h1 _ => resolve_regOf_classify h1 .operand1 _,
    fun _ _ _ h1 _ => resolve_addrOf_classify (Nat.lt_succ_of_le h1) .operand1 _,
    fun _ _ _ h1 _ => resolve_regOf_classify h1 .operand1 _⟩

/-! ### DivideByZero -/

theorem resolve_regOf_divideByZero {p : Position} {o : Operand} {k : RegIdx → Answer}
    (h : resolve (regOf p o) k = .fault .divideByZero) :
    ∃ d, o = .register d ∧ k d = .fault .divideByZero := by
  cases o with
  | register d => exact ⟨d, rfl, h⟩
  | raw b => cases h

theorem resolve_addrOf_divideByZero {p : Position} {o : Operand} {k : Byte → Answer}
    (h : resolve (addrOf p o) k = .fault .divideByZero) :
    ∃ a, o = .raw a ∧ k a = .fault .divideByZero := by
  cases o with
  | register d => cases h
  | raw a => exact ⟨a, rfl, h⟩

theorem regNum_ne_divideByZero (f : Byte → Byte → Byte) (dst operand : Operand) (s : State) :
    regNum f dst operand s ≠ .fault .divideByZero := by
  intro h
  obtain ⟨_, _, hk⟩ := resolve_regOf_divideByZero h
  cases hk

theorem execDiv_divideByZero {dst operand : Operand} {s : State}
    (h : execDiv dst operand s = .fault .divideByZero) :
    ∃ d, dst = .register d ∧ numOf s operand = 0 := by
  obtain ⟨d, hd, hk⟩ := resolve_regOf_divideByZero h
  refine ⟨d, hd, (divU_none_iff (s.readReg d) _).mp ?_⟩
  cases hq : divU (s.readReg d) (numOf s operand) with
  | none => rfl
  | some q => rw [hq] at hk; cases hk

/-- Whatever instruction ends in DivideByZero is a Div of a register by an operand of value 0. -/
theorem exec_divideByZero {i : Instr} {s : State} (h : exec i s = .fault .divideByZero) :
    ∃ d operand, i = .div (.register d) operand ∧ numOf s operand = 0 := by
  cases i with
  | load dst src =>
    obtain ⟨_, _, h1⟩ := resolve_regOf_divideByZero h
    obtain ⟨_, _, h2⟩ := resolve_addrOf_divideByZero h1
    cases h2
  | store dst src =>
    obtain ⟨_, _, h1⟩ := resolve_addrOf_divideByZero h
    obtain ⟨_, _, h2⟩ := resolve_regOf_divideByZero h1
    cases h2
  | add dst operand => exact absurd h (regNum_ne_divideByZero add8 dst operand s)
  | sub dst operand => exact absurd h (regNum_ne_divideByZero sub8 dst operand s)
  | mul dst operand => exact absurd h (regNum_ne_divideByZero mul8 dst operand s)
  | mov dst operand => exact absurd h (regNum_ne_divideByZero (fun _ v => v) dst operand s)
  | inc dst => obtain ⟨_, _, h1⟩ := resolve_regOf_divideByZero h; cases h1
  | div dst operand =>
    obtain ⟨d, rfl, hzero⟩ := execDiv_divideByZero h
    exact ⟨d, operand, rfl, hzero⟩
  | jmp target => obtain ⟨_, _, h1⟩ := resolve_addrOf_divideByZero h; cases h1
  | nop => cases h
  | hlt => cases h
  | nopUndefined op => cases h
  | fill operands => cases h
  | clear operands => cases h

/-- A well-formed operand of value 0 is a register: a raw one is 8 or more. -/
theorem register_of_numOf_zero {s : State} {o : Operand} (hw : o.wellFormed = true)
    (h : numOf s o = 0) : ∃ r, o = .register r ∧ s.readReg r = 0 := by
  cases o with
  | register r => exact ⟨r, rfl, h⟩
  | raw b =>
    have hb : b = 0 := h
    subst hb
    cases hw

/-- Settles O41: a zero divisor has no quotient, and only Div asks for one. -/
theorem divideByZeroIsRaisedByDivAlone : Obligations.DivideByZeroIsRaisedByDivAlone := by
  refine ⟨fun s d i hi => exec_div_none ((divU_none_iff _ _).mpr hi), fun i s hw h => ?_⟩
  obtain ⟨d, operand, rfl, hzero⟩ := exec_divideByZero h
  obtain ⟨r, rfl, hr⟩ :=
    register_of_numOf_zero (Instr.operands_wellFormed hw operand (by simp [Instr.operands])) hzero
  exact ⟨d, r, rfl, hr⟩

end Sys2Proof.Machine

/-! PROOFS. What instructions leave alone (10_state.md R22, R33; 20_memory.md R56), what a step reads, and
the host's load and snapshot (70_reset_and_hazards.md R236, R237, R240). -/

namespace Sys2Proof.Machine

/-! ### Video memory -/

theorem unobserved_video (v : Video) : Unobserved fun s => { s with video := v } := by
  constructor <;> intros <;> rfl

/-- Settles O47: replacing video memory is unobserved by exec. -/
theorem videoMemoryIsUntouched : Obligations.VideoMemoryIsUntouched :=
  fun i s v => (unobserved_video v).exec_eq s i

/-! ### Registers and memory -/

theorem NextShape.sameRegsBut {i : Instr} {s t : State} (h : NextShape i s t) :
    SameRegsBut (destRegs i) s t := by
  cases h with
  | register d v id hd _ _ _ _ ht =>
    rw [hd, ht]
    exact ((frame_writeReg s d v).advance id.len).regs
  | memory _ _ _ ht => subst ht; exact fun _ _ => rfl
  | jump _ _ ht => subst ht; exact fun _ _ => rfl
  | nothing _ ht => subst ht; exact fun _ _ => rfl
  | stop _ ht => subst ht; exact fun _ _ => rfl

/-- Settles O48: of the next states only the register shape writes one, its destination. -/
theorem onlyTheDestinationRegisterChanges : Obligations.OnlyTheDestinationRegisterChanges :=
  fun _ _ _ h => (exec_next h).sameRegsBut

theorem NextShape.sameMemoryBut {i : Instr} {s t : State} (h : NextShape i s t) :
    SameMemoryBut (dataWrites i) s t := by
  cases h with
  | register _ _ _ _ _ _ _ _ ht => subst ht; exact fun _ _ => rfl
  | memory a r hi ht =>
    subst hi ht
    exact ((frame_memWrite s a (s.readReg r)).advance 3).mem
  | jump _ _ ht => subst ht; exact fun _ _ => rfl
  | nothing _ ht => subst ht; exact fun _ _ => rfl
  | stop _ ht => subst ht; exact fun _ _ => rfl

/-- An instruction that names a byte to write is a Store to it. -/
theorem store_of_mem_dataWrites {i : Instr} {a : Byte} (h : a ∈ dataWrites i) :
    ∃ r, i = .store (.raw a) (.register r) := by
  unfold dataWrites at h
  split at h
  · next b r => exact ⟨r, by rw [List.mem_singleton.mp h]⟩
  · cases h

theorem dataWrites_wellFormed {i : Instr} (hw : i.wellFormed = true) :
    ∀ a ∈ dataWrites i, 8 ≤ a.toNat := by
  intro a ha
  obtain ⟨r, rfl⟩ := store_of_mem_dataWrites ha
  exact of_decide_eq_true (Instr.operands_wellFormed hw (.raw a) (List.mem_cons_self ..))

/-- Settles O49: of the next states only Store's has another memory, and Store's address operand is a
raw tag. -/
theorem onlyStoreWritesMemoryAboveSeven : Obligations.OnlyStoreWritesMemoryAboveSeven := by
  refine fun i s t h => ⟨(exec_next h).sameMemoryBut, dataWrites_wellFormed, fun hne => ?_⟩
  obtain ⟨a, ha⟩ := List.exists_mem_of_ne_nil _ hne
  exact ⟨a, store_of_mem_dataWrites ha⟩

/-! ### The bytes a fetch reads -/

/-- Decoding looks at the operand bytes the opcode has, and at no other. -/
theorem decodeWith_congr {op : Byte} {f g : Position → Byte}
    (h : ∀ p : Position, p.offset ≤ (identity op).1.count → f p = g p) :
    decodeWith op f = decodeWith op g := by
  rcases identity_cases op with hop | ⟨id, rfl⟩
  · simp [decodeWith, hop]
  · rw [identity_opcode] at h
    have h1 : 1 ≤ id.count → f .operand1 = g .operand1 := h .operand1
    have h2 : 2 ≤ id.count → f .operand2 = g .operand2 := h .operand2
    cases id <;> simp_all [decodeWith, Identity.count, Identity.classes]

theorem State.pc_mem_fetchReads (s : State) : s.pc ∈ s.fetchReads := List.mem_cons_self ..

theorem State.operand_mem_fetchReads (s : State) (p : Position)
    (h : p.offset ≤ (identity (s.memRead s.pc)).1.count) : s.fetchAddr p.offset ∈ s.fetchReads := by
  apply List.mem_cons_of_mem
  cases p with
  | operand1 => exact List.mem_map.mpr ⟨0, List.mem_range.mpr h, rfl⟩
  | operand2 => exact List.mem_map.mpr ⟨1, List.mem_range.mpr h, rfl⟩

theorem State.fetch_congr {s : State} {m : Memory}
    (h : ∀ a ∈ s.fetchReads, Memory.lookup m a.toNat = s.memRead a) :
    ({ s with mem := m } : State).fetch = s.fetch := by
  have hop : ({ s with mem := m } : State).memRead s.pc = s.memRead s.pc := h _ s.pc_mem_fetchReads
  have hbyte : ∀ p : Position, p.offset ≤ (identity (s.memRead s.pc)).1.count →
      ({ s with mem := m } : State).fetchByte p.offset = s.fetchByte p.offset :=
    fun p hp => h _ (s.operand_mem_fetchReads p hp)
  rw [State.fetch, State.fetch, hop]
  exact decodeWith_congr hbyte

/-! ### The bytes an instruction reads -/

/-- The state without its general memory: what a next state is compared by when two memories
differ. -/
def State.forgetMem (s : State) : State := { s with mem := [] }

theorem State.forgetMem_eq {t t' : State} (h : t'.forgetMem = t.forgetMem) :
    t'.regs = t.regs ∧ t'.pc = t.pc ∧ t'.run = t.run ∧ SameReserved t t' := by
  obtain ⟨hregs, hpc, hsp, hflags, hrun, -, hvideo⟩ := State.mk.inj h
  exact ⟨hregs, hpc, hrun, hsp, hflags, hvideo⟩

theorem resolve_mapNext_congr {α : Type} {f : State → State} {k k' : α → Answer}
    (r : Except Fault α) (h : ∀ a, mapNext f (k a) = mapNext f (k' a)) :
    mapNext f (resolve r k) = mapNext f (resolve r k') := by
  cases r with
  | ok a => exact h a
  | error e => rfl

theorem regNum_forgetMem (g : Byte → Byte → Byte) (dst operand : Operand) (s : State)
    (m : Memory) : mapNext State.forgetMem (regNum g dst operand { s with mem := m }) =
      mapNext State.forgetMem (regNum g dst operand s) :=
  resolve_mapNext_congr _ fun _ => by cases operand <;> rfl

theorem execLoad_forgetMem {dst src : Operand} {s : State} {m : Memory}
    (h : ∀ a ∈ dataReads (.load dst src), Memory.lookup m a.toNat = s.memRead a) :
    mapNext State.forgetMem (execLoad dst src { s with mem := m }) =
      mapNext State.forgetMem (execLoad dst src s) := by
  cases dst with
  | raw b => rfl
  | register d =>
    cases src with
    | register i => rfl
    | raw a =>
      have ha : ({ s with mem := m } : State).memRead a = s.memRead a := h a (.head _)
      rw [execLoad, execLoad, regOf, addrOf, resolve_ok, resolve_ok, resolve_ok, resolve_ok, ha]
      rfl

theorem execDiv_forgetMem (dst operand : Operand) (s : State) (m : Memory) :
    mapNext State.forgetMem (execDiv dst operand { s with mem := m }) =
      mapNext State.forgetMem (execDiv dst operand s) := by
  refine resolve_mapNext_congr _ fun d => ?_
  have hnum : numOf { s with mem := m } operand = numOf s operand := by cases operand <;> rfl
  have hreg : ({ s with mem := m } : State).readReg d = s.readReg d := rfl
  rw [hnum, hreg]
  cases divU (s.readReg d) (numOf s operand) <;> rfl

/-- Memory apart, an instruction answers alike from two memories that agree where it reads. -/
theorem exec_forgetMem {i : Instr} {s : State} {m : Memory}
    (h : ∀ a ∈ dataReads i, Memory.lookup m a.toNat = s.memRead a) :
    mapNext State.forgetMem (exec i { s with mem := m }) =
      mapNext State.forgetMem (exec i s) := by
  cases i with
  | load dst src => exact execLoad_forgetMem h
  | store dst src => exact resolve_mapNext_congr _ fun _ => resolve_mapNext_congr _ fun _ => rfl
  | add dst operand => exact regNum_forgetMem add8 dst operand s m
  | sub dst operand => exact regNum_forgetMem sub8 dst operand s m
  | jmp target => exact resolve_mapNext_congr _ fun _ => rfl
  | mov dst operand => exact regNum_forgetMem (fun _ v => v) dst operand s m
  | inc dst => exact resolve_mapNext_congr _ fun _ => rfl
  | div dst operand => exact execDiv_forgetMem dst operand s m
  | mul dst operand => exact regNum_forgetMem mul8 dst operand s m
  | nop => rfl
  | hlt => rfl
  | nopUndefined op => rfl
  | fill operands => rfl
  | clear operands => rfl

theorem exec_next_of_agree {i : Instr} {s t : State} {m : Memory}
    (h : ∀ a ∈ dataReads i, Memory.lookup m a.toNat = s.memRead a) (ht : exec i s = .next t) :
    ∃ t', exec i { s with mem := m } = .next t' ∧ t'.forgetMem = t.forgetMem := by
  have he := exec_forgetMem h
  rw [ht, mapNext_next] at he
  cases ht' : exec i { s with mem := m } with
  | next t' => rw [ht'] at he; exact ⟨t', rfl, Host.Outcome.next.inj he⟩
  | fault f => rw [ht'] at he; cases he
  | refused r => rw [ht'] at he; cases he

theorem exec_fault_of_agree {i : Instr} {s : State} {f : Fault} {m : Memory}
    (h : ∀ a ∈ dataReads i, Memory.lookup m a.toNat = s.memRead a) (hf : exec i s = .fault f) :
    exec i { s with mem := m } = .fault f := by
  have he := exec_forgetMem h
  rw [hf, mapNext_fault] at he
  cases hf' : exec i { s with mem := m } with
  | next t' => rw [hf'] at he; cases he
  | fault g => rw [hf'] at he; rw [Host.Outcome.fault.inj he]
  | refused r => rw [hf'] at he; cases he

/-- The byte written depends on no byte of memory. -/
theorem memRead_dataWrites_of_agree {i : Instr} {s t t' : State} {m : Memory}
    (ht : exec i s = .next t) (ht' : exec i { s with mem := m } = .next t') :
    ∀ a ∈ dataWrites i, t'.memRead a = t.memRead a := by
  intro a ha
  obtain ⟨r, rfl⟩ := store_of_mem_dataWrites ha
  rw [exec_store] at ht ht'
  rw [← Host.Outcome.next.inj ht, ← Host.Outcome.next.inj ht', State.memRead_advance,
    State.memRead_advance, State.memRead_memWrite_same, State.memRead_memWrite_same]
  rfl

/-! ### The accesses of a step -/

theorem dataReads_length_le (i : Instr) : (dataReads i).length ≤ 1 := by
  unfold dataReads
  split
  · exact Nat.le_refl 1
  · exact Nat.zero_le 1

theorem dataWrites_length_le (i : Instr) : (dataWrites i).length ≤ 1 := by
  unfold dataWrites
  split
  · exact Nat.le_refl 1
  · exact Nat.zero_le 1

theorem State.stepReads_length_le (s : State) : s.stepReads.length ≤ 4 := by
  cases hr : s.run with
  | halted => simp [State.stepReads_halted hr]
  | running =>
    have hcount := (identity (s.memRead s.pc)).1.count_le_two
    have hdata := dataReads_length_le s.fetch
    rw [State.stepReads_running hr, List.length_append, State.fetchReads, List.length_cons,
      List.length_map, List.length_range]
    omega

theorem State.stepWrites_length_le (s : State) : s.stepWrites.length ≤ 1 := by
  cases hr : s.run with
  | halted => simp [State.stepWrites_halted hr]
  | running => rw [State.stepWrites_running hr]; exact dataWrites_length_le s.fetch

/-- A Running step executes one instruction from both memories when they agree where it reads. -/
theorem step_replaced_mem {s : State} {m : Memory} (hr : s.run = .running)
    (h : ∀ a ∈ s.stepReads, Memory.lookup m a.toNat = s.memRead a) :
    step { s with mem := m } = exec s.fetch { s with mem := m } ∧
      ∀ a ∈ dataReads s.fetch, Memory.lookup m a.toNat = s.memRead a := by
  rw [State.stepReads_running hr] at h
  have hfetch := State.fetch_congr fun a ha => h a (List.mem_append_left _ ha)
  have hstep := step_running (s := { s with mem := m }) hr
  exact ⟨hstep.trans (by rw [hfetch]), fun a ha => h a (List.mem_append_right _ ha)⟩

/-- Settles O19: from Halted nothing is read; from Running the fetch gives the same instruction, which
answers alike but for memory, and the byte it writes is a register's value. -/
theorem stepDependsOnlyOnBytesItReads : Obligations.StepDependsOnlyOnBytesItReads := by
  refine fun s m => ⟨s.stepReads_length_le, s.stepWrites_length_le, fun h => ⟨?_, ?_⟩⟩
  · intro t ht
    rcases s.final_or_running with hr | hr
    · rw [step_halted hr] at ht
      cases ht
      rw [State.stepWrites_halted hr]
      exact ⟨_, step_halted (s := { s with mem := m }) hr, rfl, rfl, rfl, ⟨rfl, rfl, rfl⟩,
        nofun, fun _ _ => rfl⟩
    · obtain ⟨hstep, hreads⟩ := step_replaced_mem hr h
      rw [step_running hr] at ht
      obtain ⟨t', ht', hsame⟩ := exec_next_of_agree hreads ht
      obtain ⟨hregs, hpc, hrun, hreserved⟩ := State.forgetMem_eq hsame
      rw [State.stepWrites_running hr]
      exact ⟨t', hstep.trans ht', hregs, hpc, hrun, hreserved,
        memRead_dataWrites_of_agree ht ht', (exec_next ht').sameMemoryBut⟩
  · intro f hf
    have hr := step_fault_running hf
    obtain ⟨hstep, hreads⟩ := step_replaced_mem hr h
    rw [step_running hr] at hf
    exact hstep.trans (exec_fault_of_agree hreads hf)

/-! ### The host's load and snapshot -/

theorem Memory.wf_ofImage (bytes : List Byte) : Memory.wf (Memory.ofImage bytes) = true :=
  Memory.wf_putList _ [] 0 rfl (by rw [List.length_take]; omega)

/-- Settles O51: a load that succeeds replaces memory by the image's, which is canonical. -/
theorem loadProgramWritesMemoryOnly : Obligations.LoadProgramWritesMemoryOnly := by
  refine fun s bytes => ⟨fun t reply h => ?_,
    fun hlong => loadProgram_too_long s bytes (Nat.not_le_of_lt hlong)⟩
  by_cases hfits : bytes.length ≤ Config.memSize
  · rw [loadProgram_fits s bytes hfits] at h
    cases h
    exact ⟨rfl, Memory.wf_ofImage bytes⟩
  · rw [loadProgram_too_long s bytes hfits] at h
    cases h

/-- Settles O52: the snapshot is the pixels at the indices in order. -/
theorem snapshotListsEveryPixel : Obligations.SnapshotListsEveryPixel := by
  refine fun s => ⟨s.snapshot_length, fun k => ?_⟩
  rw [State.snapshot, List.getElem?_map]
  split
  · next hk => rw [List.getElem?_range hk, Option.map_some]
  · next hk =>
    rw [List.getElem?_eq_none (by rw [List.length_range]; omega), Option.map_none]

end Sys2Proof.Machine
